-- ==== Sys2Proof/Word.lean ====
section
/-! DEFINITION. The words of the block: a byte on the wire, the two address widths of R25, the request word of R54. -/

namespace Sys2Proof

/-- One transport transfer moves one byte (`FRAME` = 8, R6). -/
abbrev Byte := BitVec 8

/-- The address a request carries, `ADDR_IN_BITS` = 32 (R6, R54). -/
abbrev ReqAddr := BitVec 32

/-- The address on the wire, `ADDR_BITS` = 24 (R6, R25). -/
abbrev WireAddr := BitVec 24

/-- The request word `REQ` (R54). -/
abbrev Req := BitVec 48

end Sys2Proof
end

