-- ==== Sys2Proof/Config.lean ====
section
/-! DEFINITION. The open parameters of R6 and the free values of 93_implementation_defined.md. -/

namespace Sys2Proof

/-- `SEQ_MODE_CODE` is OPEN, one of `0x40` and `0x41` (R6, D7). -/
inductive SeqModeCode where
  | code40
  | code41
deriving DecidableEq, Repr

/-- The byte a `SeqModeCode` stands for. -/
def SeqModeCode.byte : SeqModeCode → Byte
  | .code40 => 0x40
  | .code41 => 0x41

/-- The parameters R6 leaves OPEN and the model takes. `PAGE_SIZE` is not taken: R30 then gives a
multi-byte burst in Page mode no meaning (log entry 17). -/
structure Config where
  seqModeCode    : SeqModeCode
  deviceCapacity : Nat
deriving DecidableEq, Repr

/-- The bounds R6 sets: `1 <= DEVICE_CAPACITY <= 2^24`. -/
def Config.wf (c : Config) : Bool := decide (1 ≤ c.deviceCapacity) && decide (c.deviceCapacity ≤ 2 ^ 24)

/-- The configuration of the reset state: R6's default `0x40`, and 2^17 bytes, the convention of
95_test_vectors.md. DESIGN CHOICE (log entry 2): claims are made for every configuration. -/
def Config.default : Config := { seqModeCode := .code40, deviceCapacity := 2 ^ 17 }

/-- Free value: the byte received in a transfer whose received byte the spec leaves unspecified
(R45, U12); the argument counts the transfers (log entry 8). -/
opaque Config.freeRx : Nat → Byte

/-- Free value: the content of `DEV.status` after it became unspecified for the n-th time (R23, log entry 10). -/
opaque Config.freeStatus : Nat → Byte

/-- Free value: `DEV.ctr` after a data byte in Byte or Page mode, for which the spec gives no advance (R29, R30, N8,
log entry 29); the argument counts the transfers. -/
opaque Config.freeCtr : Nat → Nat

/-- Free value: `DEV.ctr`, any value or none, of a device that became unspecified, the n-th time its contents did
(R76, U4, U7, U9, log entry 31). -/
opaque Config.freeLostCtr : Nat → Option Nat

/-- Free value: the content of a byte of `DEV.mem` nothing has written since the memory became
unspecified for the n-th time; the second argument is the address (R20, R23, log entry 9). -/
opaque Config.freeMem : Nat → Nat → Byte

end Sys2Proof
end

