-- ==== Sys2Proof/Syntax.lean ====
section
/-! DEFINITION. The instructions: one constructor per row of spec/opcode_table.json, and the two forms an
instruction is presented in (R46). -/

namespace Sys2Proof

/-- `Operation` (R49, R56). -/
inductive Operation where
  | readStatus
  | writeStatus
  | read
  | write
deriving DecidableEq, Repr

/-- `TransferMode`, three modes (R51, C2). -/
inductive TransferMode where
  | byte
  | sequential
  | page
deriving DecidableEq, Repr

/-- One constructor per row of the opcode table: eleven request rows (R55), eight wire rows (R47, R48, R53). -/
inductive Instr where
  /-- `SEND_CMD op, addr` (R63). -/
  | sendCmd (op : Operation) (addr : ReqAddr)
  /-- `XFER data` (R64). -/
  | xfer (data : Byte)
  /-- `END_CMD` (R65). -/
  | endCmd
  /-- `SET_MODE Byte` (R70). -/
  | setModeByte
  /-- `SET_MODE Sequential` (R70). -/
  | setModeSequential
  /-- `SET_MODE Page` (R70). -/
  | setModePage
  /-- `SET_MODE` with mode `0b11` (R77). -/
  | setModeReserved
  /-- `READ_STATUS` (R71). -/
  | readStatus
  /-- Reserved kind `0x5` (R77). -/
  | reservedKind5
  /-- Reserved kinds `0x6`, `0x7` (R77). -/
  | reservedKind6To7 (kind : BitVec 4)
  /-- Reserved kinds `0x8` to `0xF` (R77). -/
  | reservedKind8ToF (kind : BitVec 4)
  /-- Wire frame READ: `0x03` and the address (R47). -/
  | wireRead (addr : WireAddr)
  /-- Wire frame WRITE: `0x02` and the address (R47). -/
  | wireWrite (addr : WireAddr)
  /-- Wire frame WRSR: `0x01` and the mode code (R48). -/
  | wireWrsr (code : Byte)
  /-- Wire frame RDSR: `0x05` and the dummy byte (R48). -/
  | wireRdsr (dummy : Byte)
  /-- Wire frame RDSR.A: `0x05` and an address, out of contract (R63 corner case 4). -/
  | wireRdsrA (addr : WireAddr)
  /-- Wire frame WRSR.A: `0x01` and an address, out of contract (R63 corner case 4). -/
  | wireWrsrA (addr : WireAddr)
  /-- Wire opcode `0x0B`, reserved (R53). -/
  | wireHsread
  /-- Wire opcode `0xFF`, reserved (R53). -/
  | wireRstio
deriving DecidableEq, Repr

/-- The two encodings of R46: a request word, or the bytes of a wire frame, first transferred first (R7). -/
inductive Presented where
  | request (w : Req)
  | frame (bytes : List Byte)
deriving DecidableEq, Repr

/-- The request rows of the table, as against the wire rows. -/
def Instr.isRequest : Instr → Bool
  | .sendCmd _ _ => true
  | .xfer _ => true
  | .endCmd => true
  | .setModeByte => true
  | .setModeSequential => true
  | .setModePage => true
  | .setModeReserved => true
  | .readStatus => true
  | .reservedKind5 => true
  | .reservedKind6To7 _ => true
  | .reservedKind8ToF _ => true
  | .wireRead _ => false
  | .wireWrite _ => false
  | .wireWrsr _ => false
  | .wireRdsr _ => false
  | .wireRdsrA _ => false
  | .wireWrsrA _ => false
  | .wireHsread => false
  | .wireRstio => false

end Sys2Proof
end

