-- ==== Sys2Proof/Machine/State.lean ====
section
/-! DEFINITION. The state as plain data: the framer (R10), the device (R18 to R20, R27), the environment's coming
inputs, and reset (R23). INVENTORY.md lists every field. -/

namespace Sys2Proof.Machine

open Sys2Proof

/-! ### The framer -/

/-- The level of the chip-select line: low is asserted, high deasserted (R6, R11). -/
inductive Level where
  | low
  | high
deriving DecidableEq, Repr

/-- The two values of `fault` (R12). -/
inductive FaultRecord where
  | none
  | transportError
deriving DecidableEq, Repr

/-- An event of the trace (R13). -/
inductive Event where
  /-- `CS(level)`: a `SetCS` call. -/
  | cs (l : Level)
  /-- `T(tx, rx)`: a completed transfer. -/
  | t (tx rx : Byte)
  /-- `TF(tx)`: a transfer that reported a bus fault. -/
  | tf (tx : Byte)
deriving DecidableEq, Repr

/-- The `err` field of a response (R57, R75). -/
inductive ErrCode where
  | ok
  | transportError
  | illegalRequest
deriving DecidableEq, Repr

/-- A response `RSP` (R57). -/
structure Response where
  err  : ErrCode
  data : Byte
deriving DecidableEq, Repr

/-! ### The device (environment) -/

/-- The two addressed bursts of R26. -/
inductive BurstKind where
  | read
  | write
deriving DecidableEq, Repr

/-- Where in a burst the device is (R27). -/
inductive Phase where
  /-- No burst. -/
  | idle
  /-- Selected, no byte yet: the next byte is the opcode. -/
  | opened
  /-- In the header of an addressed burst; `got` are the address bytes received, first first. -/
  | header (kind : BurstKind) (got : List Byte)
  /-- Past the header; `first` says that no data byte has been transferred. -/
  | data (kind : BurstKind) (first : Bool)
  /-- After `OPC_WRSR`: the next byte replaces the status register. -/
  | statusWrite
  /-- After `OPC_RDSR`: the next byte received is the status register. -/
  | statusRead
  /-- After the data byte of a status command. -/
  | spent
deriving DecidableEq, Repr

/-- The device. `statusKnown`, `epoch` and `lost` are the model's own (INVENTORY.md). -/
structure Device where
  /-- `DEV.status` (R18). -/
  status      : Byte
  /-- A status write has been seen since the contents last became unspecified (R66, R73), and none was cut by a reset
  since (log entry 7). -/
  statusKnown : Bool
  /-- `DEV.ctr` (R19): a value only past the header of a Read or Write burst. -/
  ctr         : Option Nat
  /-- `DEV.mem` (R20): the bytes whose value is specified, addresses strictly rising. -/
  mem         : List Host.Cell
  /-- Names the free contents of the unlisted bytes. -/
  epoch       : Nat
  phase       : Phase
  /-- The device is unspecified until the framer is reset (R66; log entry 12). -/
  lost        : Bool
deriving DecidableEq, Repr

/-- The device after power-on: contents and status unspecified, no burst open (R23, R89). -/
def Device.powerOn (epoch : Nat) : Device :=
  { status := Config.freeStatus epoch, statusKnown := false, ctr := none, mem := [], epoch := epoch,
    phase := .idle, lost := false }

/-! ### The environment's inputs -/

/-- What the transport does with a transfer (R8, R96), or that a framer reset arrives during it (R88). -/
inductive Answer where
  /-- `ok(rx)`. -/
  | ok
  /-- `busfault`. -/
  | busFault
  /-- Never answers. -/
  | stall
  /-- The framer is reset before the transfer answers. -/
  | reset
deriving DecidableEq, Repr

/-- What the outside world does next. -/
inductive Input where
  /-- A request word of the client, or a wire frame (log entry 21). -/
  | present (p : Presented)
  /-- Reset of the framer (R88). -/
  | framerReset
  /-- Power-on or power-cycle of the device (R89). -/
  | devicePowerCycle
deriving DecidableEq, Repr

/-! ### The whole -/

/-- The state of framer, device and environment. -/
structure State where
  /-- The configuration: constants no step changes (R21; log entry 1). -/
  cfg       : Config
  /-- `cs_n` (R11). -/
  csN       : Level
  /-- `fault` (R12). -/
  fault     : FaultRecord
  /-- `trace` (R13), oldest first. -/
  trace     : List Event
  /-- Every response given, oldest first (R57; log entry 4). -/
  responses : List Response
  /-- The device (R18 to R20). -/
  dev       : Device
  /-- What the outside world does next, next first (log entry 3). -/
  inputs    : List Input
  /-- The transport's coming answers, next first; past the list's end every transfer completes (log entry 5). -/
  answers   : List Answer
  /-- How many received bytes have been drawn (log entry 8). -/
  draws     : Nat
deriving DecidableEq, Repr

/-- The reasons the machine stops. -/
inductive Fault where
  /-- A transfer never answers: the framer is stuck (R96, U10). Raised by every instruction that makes a
  transfer, when the environment stalls it. Safe: no step completes. -/
  | stalledTransfer
deriving DecidableEq, Repr

/-- The reasons there is no step. -/
inductive Refusal where
  /-- An instruction whose meaning is not written; raised by no arm. Safe. -/
  | notModelled (mnemonic : String)
  /-- A presented wire frame is no row of the opcode table; raised by `step`. Safe. -/
  | notATableRow
  /-- `0x0B` and `0xFF` are never sent as an opcode and have no format (R53, D16, N10; log entry 22); raised by
  HSREAD and RSTIO on every path. Safe. -/
  | opcodeNeverEmitted
deriving DecidableEq, Repr

/-- The state after reset of the framer, with the device just powered on (R23). -/
def State.reset : State :=
  { cfg := Config.default, csN := .high, fault := .none, trace := [], responses := [],
    dev := Device.powerOn 0, inputs := [], answers := [], draws := 0 }

end Sys2Proof.Machine
end

