-- ==== Sys2Proof/Machine/Memory.lean ====
section
/-! DEFINITION. Device memory as a list of (address, byte) in one canonical form: addresses strictly rising. An
unlisted address reads as no value here; `Device.byteAt` gives it its free value (log entry 9). -/

namespace Sys2Proof.Machine

open Sys2Proof

/-- Every address of the list is above `a`, and the addresses rise. -/
def Memory.above : Nat → List Host.Cell → Bool
  | _, [] => true
  | a, c :: m => decide (a < c.1) && Memory.above c.1 m

/-- The canonical form: addresses strictly rising. No entry can equal what an unlisted address reads as,
since that is no value. -/
def Memory.wf : List Host.Cell → Bool
  | [] => true
  | c :: m => Memory.above c.1 m

/-- The byte listed at an address. -/
def Memory.lookup : List Host.Cell → Nat → Option Byte
  | [], _ => none
  | c :: m, a => if c.1 = a then some c.2 else Memory.lookup m a

/-- Stores one byte, keeping the form. -/
def Memory.store : List Host.Cell → Nat → Byte → List Host.Cell
  | [], a, v => [(a, v)]
  | c :: m, a, v =>
    if a < c.1 then (a, v) :: c :: m
    else if a = c.1 then (a, v) :: m
    else c :: Memory.store m a v

end Sys2Proof.Machine
end

