-- ==== Sys2Proof/WellFormed.lean ====
section
/-! DEFINITION. Which terms of Instr have an encoding: the reserved rows carry a kind of their own range (R55). -/

namespace Sys2Proof

/-- Two checks: `RESERVED.kind6_7` holds kind 6 or 7, `RESERVED.kind8_F` a kind of 8 or more (R55). Every
other row encodes every value of its fields. -/
def Instr.wellFormed : Instr → Bool
  | .sendCmd _ _ => true
  | .xfer _ => true
  | .endCmd => true
  | .setModeByte => true
  | .setModeSequential => true
  | .setModePage => true
  | .setModeReserved => true
  | .readStatus => true
  | .reservedKind5 => true
  | .reservedKind6To7 k => k == 6#4 || k == 7#4
  | .reservedKind8ToF k => decide (8#4 ≤ k)
  | .wireRead _ => true
  | .wireWrite _ => true
  | .wireWrsr _ => true
  | .wireRdsr _ => true
  | .wireRdsrA _ => true
  | .wireWrsrA _ => true
  | .wireHsread => true
  | .wireRstio => true

end Sys2Proof
end

