-- ==== Sys2Proof/Decode.lean ====
section
/-! DEFINITION. The encoding tables of 30_encoding.md, the decoder (total, rejecting by name) and the encoder. -/

namespace Sys2Proof

/-! ### The constants of R6 and R49 -/

/-- `OPC_RDSR` (R6). -/
def opcRdsr : Byte := 0x05
/-- `OPC_WRSR` (R6). -/
def opcWrsr : Byte := 0x01
/-- `OPC_READ` (R6). -/
def opcRead : Byte := 0x03
/-- `OPC_WRITE` (R6). -/
def opcWrite : Byte := 0x02
/-- `OPC_HSREAD`, optional, emitted by no request (R6, R53). -/
def opcHsread : Byte := 0x0B
/-- `OPC_RSTIO`, optional, emitted by no request (R6, R53). -/
def opcRstio : Byte := 0xFF
/-- `DUMMY_TX`, the byte sent while only receiving (R6, D10). -/
def dummyTx : Byte := 0x00

/-- The opcode map `opcode : Operation -> byte` (R49). -/
def Operation.opcode : Operation → Byte
  | .readStatus => opcRdsr
  | .writeStatus => opcWrsr
  | .read => opcRead
  | .write => opcWrite

/-! ### The address field (R50) -/

/-- First address byte on the wire, `a24[23:16]` (R50). -/
def addrByte1 (a : WireAddr) : Byte := a.extractLsb' 16 8
/-- Second address byte, `a24[15:8]` (R50). -/
def addrByte2 (a : WireAddr) : Byte := a.extractLsb' 8 8
/-- Third address byte, `a24[7:0]` (R50). -/
def addrByte3 (a : WireAddr) : Byte := a.extractLsb' 0 8

/-- The address three address bytes spell, most significant first (R27, R47). -/
def addrOfBytes (b1 b2 b3 : Byte) : WireAddr := b1 ++ b2 ++ b3

/-- A Format A header: the opcode, then the address bytes, most significant first (R47). -/
def headerBytes (opc : Byte) (a : WireAddr) : List Byte := [opc, addrByte1 a, addrByte2 a, addrByte3 a]

/-! ### The request word (R54 to R56) -/

/-- `REQ[47:44]`. -/
def reqKind (w : Req) : BitVec 4 := w.extractLsb' 44 4
/-- `REQ[43:42]`. -/
def reqOp (w : Req) : BitVec 2 := w.extractLsb' 42 2
/-- `REQ[41:40]`. -/
def reqMode (w : Req) : BitVec 2 := w.extractLsb' 40 2
/-- `REQ[39:8]`. -/
def reqAddr (w : Req) : ReqAddr := w.extractLsb' 8 32
/-- `REQ[7:0]`. -/
def reqData (w : Req) : Byte := w.extractLsb' 0 8

/-- The word of given fields, `kind[47:44] op[43:42] mode[41:40] addr[39:8] data[7:0]` (R54). -/
def reqWord (kind : BitVec 4) (op mode : BitVec 2) (addr : ReqAddr) (data : Byte) : Req :=
  kind ++ op ++ mode ++ addr ++ data

/-- The 2-bit code of an Operation (R56). -/
def Operation.code : Operation → BitVec 2
  | .readStatus => 0b00
  | .writeStatus => 0b01
  | .read => 0b10
  | .write => 0b11

/-- The Operation of a 2-bit code; every code is legal in `SEND_CMD` (R56). -/
def operationOfCode (c : BitVec 2) : Operation :=
  if c = 0b00 then .readStatus
  else if c = 0b01 then .writeStatus
  else if c = 0b10 then .read
  else .write

/-- The `SET_MODE` row a 2-bit mode code selects; `0b11` is reserved (R56). -/
def setModeOfCode (c : BitVec 2) : Instr :=
  if c = 0b00 then .setModeByte
  else if c = 0b01 then .setModeSequential
  else if c = 0b10 then .setModePage
  else .setModeReserved

/-- A request word's row. Every word has one: the kinds and mode codes are partitioned (R55, R56), and a
field the kind does not use is ignored (R54). -/
def decodeRequest (w : Req) : Instr :=
  if reqKind w = 0x0 then .sendCmd (operationOfCode (reqOp w)) (reqAddr w)
  else if reqKind w = 0x1 then .xfer (reqData w)
  else if reqKind w = 0x2 then .endCmd
  else if reqKind w = 0x3 then setModeOfCode (reqMode w)
  else if reqKind w = 0x4 then .readStatus
  else if reqKind w = 0x5 then .reservedKind5
  else if reqKind w = 0x6 then .reservedKind6To7 0x6
  else if reqKind w = 0x7 then .reservedKind6To7 0x7
  else .reservedKind8ToF (reqKind w)

/-! ### Wire frames (R47, R48, R53) -/

/-- Why bytes are no row of the table. -/
inductive DecodeError where
  /-- The byte in opcode position is no opcode of a frame of this length. -/
  | unknownOpcode
  /-- No row has a frame of this many bytes. -/
  | badLength
deriving DecidableEq, Repr

/-- The row a frame of one byte stands for: only the two reserved opcodes (R53). -/
def decodeFrame1 (opc : Byte) : Except DecodeError Instr :=
  if opc = opcHsread then .ok .wireHsread
  else if opc = opcRstio then .ok .wireRstio
  else .error .unknownOpcode

/-- The row of a Format S frame (R48). -/
def decodeFrame2 (opc d : Byte) : Except DecodeError Instr :=
  if opc = opcWrsr then .ok (.wireWrsr d)
  else if opc = opcRdsr then .ok (.wireRdsr d)
  else .error .unknownOpcode

/-- The row of a Format A header (R47, R49). -/
def decodeFrame4 (opc : Byte) (a : WireAddr) : Except DecodeError Instr :=
  if opc = opcRead then .ok (.wireRead a)
  else if opc = opcWrite then .ok (.wireWrite a)
  else if opc = opcRdsr then .ok (.wireRdsrA a)
  else if opc = opcWrsr then .ok (.wireWrsrA a)
  else .error .unknownOpcode

/-- A wire frame's row, from its bytes in the order transferred. -/
def decodeFrame : List Byte → Except DecodeError Instr
  | [opc] => decodeFrame1 opc
  | [opc, d] => decodeFrame2 opc d
  | [opc, b1, b2, b3] => decodeFrame4 opc (addrOfBytes b1 b2 b3)
  | _ => .error .badLength

/-- The decoder, on either form (R46). -/
def decode : Presented → Except DecodeError Instr
  | .request w => .ok (decodeRequest w)
  | .frame bytes => decodeFrame bytes

/-! ### The encoder -/

/-- A request of a kind and no operands; ignored fields are written as zero. -/
def bareRequest (kind : BitVec 4) : Presented := .request (reqWord kind 0 0 0 0)

/-- The words of a well-formed instruction, from the tables of R47, R48, R53 to R56. -/
def encode : Instr → Presented
  | .sendCmd op addr => .request (reqWord 0x0 op.code 0 addr 0)
  | .xfer data => .request (reqWord 0x1 0 0 0 data)
  | .endCmd => bareRequest 0x2
  | .setModeByte => .request (reqWord 0x3 0 0b00 0 0)
  | .setModeSequential => .request (reqWord 0x3 0 0b01 0 0)
  | .setModePage => .request (reqWord 0x3 0 0b10 0 0)
  | .setModeReserved => .request (reqWord 0x3 0 0b11 0 0)
  | .readStatus => bareRequest 0x4
  | .reservedKind5 => bareRequest 0x5
  | .reservedKind6To7 k => bareRequest k
  | .reservedKind8ToF k => bareRequest k
  | .wireRead a => .frame (headerBytes opcRead a)
  | .wireWrite a => .frame (headerBytes opcWrite a)
  | .wireWrsr code => .frame [opcWrsr, code]
  | .wireRdsr dummy => .frame [opcRdsr, dummy]
  | .wireRdsrA a => .frame (headerBytes opcRdsr a)
  | .wireWrsrA a => .frame (headerBytes opcWrsr a)
  | .wireHsread => .frame [opcHsread]
  | .wireRstio => .frame [opcRstio]

/-! ### The opcode table's own numbering -/

/-- The `k` bytes of a number, most significant first: the first transferred byte stands in the highest
bits of a wire row (R47, R48; log entry 26). -/
def bytesMsbFirst : Nat → Nat → List Byte
  | 0, _ => []
  | k + 1, w => BitVec.ofNat 8 (w / 256 ^ k) :: bytesMsbFirst k w

/-- The form a table row's bits are presented in: a 48-bit row is a request word, a shorter one a frame. -/
def presentTableWord (nbits w : Nat) : Presented :=
  if nbits = 48 then .request (BitVec.ofNat 48 w) else .frame (bytesMsbFirst (nbits / 8) w)

/-- The row the decoder reads from bits numbered as spec/opcode_table.json numbers them. -/
def decodeTableWord (nbits w : Nat) : Option Instr := (decode (presentTableWord nbits w)).toOption

end Sys2Proof
end

