-- ==== Sys2Proof/Machine/Operands.lean ====
section
/-! DEFINITION. The operand forms: the address cut to 24 bits (R50), the mode byte (R51), the data byte (R52), the
status byte as read back (R71). -/

namespace Sys2Proof.Machine

open Sys2Proof

/-- The wire address of a request's address: the upper 8 bits are dropped (R50). -/
def wireAddr (a : ReqAddr) : WireAddr := a.setWidth 24

/-- `mode_code : TransferMode -> byte`, a table of constants (R51). -/
def modeCode (cfg : Config) : TransferMode → Byte
  | .byte => 0x00
  | .sequential => cfg.seqModeCode.byte
  | .page => 0x80

/-- The mode bits 7:6 of a status byte select; `0b11` selects none (R18). -/
def modeOfStatus (status : Byte) : Option TransferMode :=
  if status.extractLsb' 6 2 = 0b00 then some .byte
  else if status.extractLsb' 6 2 = 0b01 then some .sequential
  else if status.extractLsb' 6 2 = 0b10 then some .page
  else none

/-- The status byte as received: bits 7:6 as stored, bits 5:0 unspecified (R71 corner case 3, U13). -/
def statusReadback (status free : Byte) : Byte := status.extractLsb' 6 2 ++ free.extractLsb' 0 6

end Sys2Proof.Machine
end

