-- ==== Sys2Proof/Machine/Device.lean ====
section
/-! DEFINITION. The device's side of the wire (environment rules R27 to R32, and the open cases U1 to U9 of
93_implementation_defined.md): what a chip-select edge, a byte, a power-cycle does to it. -/

namespace Sys2Proof.Machine

open Sys2Proof

/-- The content of one byte of `DEV.mem`: the specified byte, else the free value of this epoch (R20, R23). -/
def Device.byteAt (d : Device) (a : Nat) : Byte := (Memory.lookup d.mem a).getD (Config.freeMem d.epoch a)

/-- The transfer mode, when a status write has selected one (R18, R73, U11). -/
def Device.mode (d : Device) : Option TransferMode := if d.statusKnown then modeOfStatus d.status else none

/-- Memory and status become unspecified: fresh free values. No burst is open, so the counter holds no value (R19,
R89). -/
def Device.havoc (d : Device) : Device := { Device.powerOn (d.epoch + 1) with lost := d.lost }

/-- The device becomes unspecified until the framer is reset: an ill-formed sequence, a bus fault, an undefined
burst (R29 to R31, R66, R76, U1 to U9; log entry 12). The counter is a free value too, also while the line stays low;
`phase` is `idle`, DESIGN CHOICE (log entry 31): nothing reads it while `lost`. -/
def Device.lose (d : Device) : Device := { d.havoc with lost := true, ctr := Config.freeLostCtr (d.epoch + 1) }

/-- Power-on or power-cycle (R89): contents and status unspecified, no burst open. A device already
unspecified stays so (log entry 24). -/
def Device.powerCycle (d : Device) : Device := d.havoc

/-- Chip-select falls: a burst begins (R27). -/
def Device.select (d : Device) : Device :=
  if d.lost then d.lose else { d with phase := .opened }

/-- The burst ends and the counter holds no value; what was stored stays (R32). -/
def Device.endBurst (d : Device) : Device := { d with phase := .idle, ctr := none }

/-- Chip-select rises (R32). A burst that ends before its header is complete leaves the device unspecified (U5); the
header of a status command is its opcode (R9), and without a data byte it changes nothing (R27, D25). -/
def Device.deselect (d : Device) : Device :=
  if d.lost then d.lose.endBurst
  else
    match d.phase with
    | .idle => d
    | .data _ _ => d.endBurst
    | .statusWrite => d.endBurst
    | .statusRead => d.endBurst
    | .spent => d.endBurst
    | .opened => d.lose.endBurst
    | .header _ _ => d.lose.endBurst

/-- The framer is reset between requests: chip-select rises (R88), and a new sequence begins (R66). -/
def Device.framerReset (d : Device) : Device := { d.deselect with lost := false }

/-- The opcode byte (R27); any other opcode leaves the device unspecified (U6). -/
def Device.takeOpcode (d : Device) (tx : Byte) : Device :=
  if tx = opcRead then { d with phase := .header .read [] }
  else if tx = opcWrite then { d with phase := .header .write [] }
  else if tx = opcWrsr then { d with phase := .statusWrite }
  else if tx = opcRdsr then { d with phase := .statusRead }
  else d.lose

/-- The header is complete: the counter is loaded (R27). With no mode selected (R73, U11) or an address at
or above the capacity (R25, U3) the burst has no specified effect. -/
def Device.loadCounter (cap : Nat) (d : Device) (kind : BurstKind) (a : WireAddr) : Device :=
  if d.mode.isSome && decide (a.toNat < cap) then { d with phase := .data kind true, ctr := some a.toNat }
  else d.lose

/-- One address byte, most significant first (R27). -/
def Device.takeAddressByte (cap : Nat) (d : Device) (kind : BurstKind) (got : List Byte) (tx : Byte) : Device :=
  match got with
  | [b1, b2] => d.loadCounter cap kind (addrOfBytes b1 b2 tx)
  | _ => { d with phase := .header kind (got ++ [tx]) }

/-- The address the next data byte reads or writes, where the spec gives one: the first data byte in every
mode, a later one in Sequential mode only (R28 to R30), below the capacity (R31). -/
def Device.dataAddress (cap : Nat) (d : Device) : Option Nat :=
  match d.phase, d.ctr with
  | .data _ first, some a => if (first || d.mode == some .sequential) && decide (a < cap) then some a else none
  | _, _ => none

/-- The address the next byte stores to: that of a data byte of a Write burst. -/
def Device.storeAddress (cap : Nat) (d : Device) : Option Nat :=
  match d.phase with
  | .data .write _ => if d.lost then none else d.dataAddress cap
  | _ => none

/-- What a cut leaves where the spec leaves all of the device open: contents and status fresh and unspecified, no burst,
and a new sequence begins (R66). -/
def Device.cutUnspecified (d : Device) : Device := { d.havoc with lost := false }

/-- The framer is reset during a transfer: chip-select rises and the burst ends (R88, R32). Past its header the device
is as it was (R89), but for what the cut byte was writing: a byte of a Write burst, or the status register of a status
write, becomes the free value `free`, and the mode is then not known (log entry 7). Cut before its header is complete
(R9, U5), at a byte the spec gives no meaning (U1 to U4, U6, U8), or out of contract, nothing is specified. -/
def Device.cutShort (cap : Nat) (free : Byte) (d : Device) : Device :=
  if d.lost then d.cutUnspecified
  else
    match d.phase with
    | .data kind _ =>
      match d.dataAddress cap, kind with
      | some a, .write => { d.endBurst with mem := Memory.store d.mem a free }
      | some _, .read => d.endBurst
      | none, _ => d.cutUnspecified
    | .statusWrite => { d.endBurst with status := free, statusKnown := false }
    | .statusRead => d.endBurst
    | .idle => d.cutUnspecified
    | .opened => d.cutUnspecified
    | .header _ _ => d.cutUnspecified
    | .spent => d.cutUnspecified

/-- After a data byte at `a` the counter holds `a + 1` in Sequential mode (R28). In Byte and Page mode the spec gives no
advance (R29, R30, N8), and the counter holds the free value `freeCtr` (log entry 29). -/
def Device.advance (freeCtr : Nat) (d : Device) (kind : BurstKind) (a : Nat) : Device :=
  { d with ctr := some (if d.mode = some .sequential then a + 1 else freeCtr), phase := .data kind false }

/-- A data byte: a Write burst stores `tx` at the counter, a Read burst sends the byte there (R27). -/
def Device.dataByte (cap : Nat) (free : Byte) (freeCtr : Nat) (tx : Byte) (d : Device) (kind : BurstKind) : Byte × Device :=
  match d.dataAddress cap with
  | none => (free, d.lose)
  | some a =>
    match kind with
    | .read => (d.byteAt a, d.advance freeCtr kind a)
    | .write => (free, { d.advance freeCtr kind a with mem := Memory.store d.mem a tx })

/-- The device takes one byte and sends one (R27). `free` is the free value sent where the byte received
carries no data (R45), `freeCtr` the counter's free value (R29, R30). -/
def Device.exchange (cap : Nat) (free : Byte) (freeCtr : Nat) (tx : Byte) (d : Device) : Byte × Device :=
  if d.lost then (free, d.lose)
  else
    match d.phase with
    | .idle => (free, d.lose)
    | .opened => (free, d.takeOpcode tx)
    | .header kind got => (free, d.takeAddressByte cap kind got tx)
    | .data kind _ => d.dataByte cap free freeCtr tx kind
    | .statusWrite => (free, { d with status := tx, statusKnown := true, phase := .spent })
    | .statusRead => (statusReadback d.status free, { d with phase := .spent })
    | .spent => (free, d.lose)

end Sys2Proof.Machine
end

