-- ==== Sys2Proof/Machine/Flags.lean ====
section
/-! DEFINITION. The one flag-like record, `fault` (R12, R16), the test of it at the start of every request (R62), and
the response word (R57). -/

namespace Sys2Proof.Machine

open Sys2Proof

/-- The `err` field's two bits (R57). -/
def ErrCode.code : ErrCode → BitVec 2
  | .ok => 0b00
  | .transportError => 0b01
  | .illegalRequest => 0b10

/-- The 10-bit response word: `err[9:8] data[7:0]` (R57). -/
def Response.word (r : Response) : BitVec 10 := r.err.code ++ r.data

/-- Gives the client a response. -/
def respond (err : ErrCode) (data : Byte) (s : State) : State :=
  { s with responses := s.responses ++ [{ err := err, data := data }] }

/-- The test every request starts with (R62 step 1, R78): once `fault` is set the answer is TransportError,
with no `SetCS`, no `Transfer` and no state change. -/
def unlessFaulted (s : State) (body : State → Host.Outcome State Fault Refusal) :
    Host.Outcome State Fault Refusal :=
  match s.fault with
  | .transportError => .next (respond .transportError 0 s)
  | .none => body s

end Sys2Proof.Machine
end

