-- ==== Sys2Proof/Machine/Ops.lean ====
section
/-! DEFINITION. The primitives of R8 (`SetCS`, `Transfer`, `raise`), taking TransportError (R76), reset (R88), and the
two frames of R47 and R48 built on them. -/

namespace Sys2Proof.Machine

open Sys2Proof

/-! ### Primitives -/

/-- Appends an event to the trace (R13). -/
def record (e : Event) (s : State) : State := { s with trace := s.trace ++ [e] }

/-- What a `SetCS` call does to the device: an edge begins or ends a burst; a low call on a low line is a
command inside an open burst, which leaves the device unspecified (R66, R92, U7). -/
def chipSelectAtDevice (before after : Level) (d : Device) : Device :=
  match before, after with
  | .high, .low => d.select
  | .low, .low => d.lose
  | _, .high => d.deselect

/-- `SetCS(level)` (R8): the level is set and the event recorded, also when the level does not change. -/
def setCS (l : Level) (s : State) : State :=
  record (.cs l) { s with csN := l, dev := chipSelectAtDevice s.csN l s.dev }

/-- How a transfer, or a run of them, ends. -/
inductive XferResult where
  /-- `ok(rx)`: the request goes on, with the byte received last. -/
  | got (rx : Byte) (s : State)
  /-- The request ended here: by a bus fault, or by a framer reset. -/
  | ended (s : State)
  /-- The transfer never answers (R96). -/
  | stalled
deriving DecidableEq, Repr

/-- Goes on after `ok(rx)` only: once a request has ended, no later primitive of it runs (R8, R76). -/
def XferResult.andThen (r : XferResult) (f : Byte → State → XferResult) : XferResult :=
  match r with
  | .got rx s => f rx s
  | .ended s => .ended s
  | .stalled => .stalled

/-- Taking TransportError (R76): `trace += TF(tx)`, `fault` is set, `cs_n` keeps its level, the response is
TransportError with data 0. The device is unknown afterwards, its counter too (U9, log entries 20 and 31). -/
def takeTransportError (tx : Byte) (s : State) : State :=
  respond .transportError 0 (record (.tf tx) { s with fault := .transportError, dev := s.dev.lose })

/-- The reset values of the framer (R23, R88): line high, no fault, trace empty. -/
def framerResetValues (s : State) : State := { s with csN := .high, fault := .none, trace := [] }

/-- Reset of the framer between requests, the only way out of the faulted state (R78, R83, R88). -/
def framerReset (s : State) : State := framerResetValues { s with dev := s.dev.framerReset }

/-- Reset of the framer during a transfer: the request is abandoned without a response (R88). -/
def resetDuringTransfer (s : State) : State :=
  framerResetValues
    { s with dev := s.dev.cutShort s.cfg.deviceCapacity (Config.freeRx s.draws), draws := s.draws + 1 }

/-- Power-cycle of the device; the framer cannot detect it (R89). -/
def devicePowerCycle (s : State) : State := { s with dev := s.dev.powerCycle }

/-- The transport's next answer: the next of the list, `ok` past its end. -/
def State.nextAnswer (s : State) : Answer := s.answers.head?.getD .ok

/-- The next answer is used up. -/
def State.useAnswer (s : State) : State := { s with answers := s.answers.tail }

/-- A transfer that completes: the device takes `tx`, sends a byte, and `T(tx, rx)` is recorded. -/
def completeTransfer (tx : Byte) (s : State) : XferResult :=
  let r := s.dev.exchange s.cfg.deviceCapacity (Config.freeRx s.draws) (Config.freeCtr s.draws) tx
  .got r.1 (record (.t tx r.1) { s with dev := r.2, draws := s.draws + 1 })

/-- `Transfer(tx)` (R8). -/
def transfer (tx : Byte) (s : State) : XferResult :=
  match s.nextAnswer with
  | .ok => completeTransfer tx s.useAnswer
  | .busFault => .ended (takeTransportError tx s.useAnswer)
  | .reset => .ended (resetDuringTransfer s.useAnswer)
  | .stall => .stalled

/-- Transfers in order, one a byte; the result carries the byte received last (`last` if there is none). -/
def transferAll (last : Byte) : List Byte → State → XferResult
  | [], s => .got last s
  | b :: bs, s => (transfer b s).andThen fun rx s' => transferAll rx bs s'

/-! ### Frames -/

/-- `SEND_CMD` with a status operation is outside the contract; the device is unspecified from it on (R63
corner case 4, R66, U15). -/
def contractOfOperation (op : Operation) (s : State) : State :=
  match op with
  | .read => s
  | .write => s
  | .readStatus => { s with dev := s.dev.lose }
  | .writeStatus => { s with dev := s.dev.lose }

/-- `SEND_CMD` with a request address at or above the capacity is outside the contract, also where the bits
dropped on the wire bring it back into range; the device is unspecified from it on (R66, R93; log entry 15). -/
def contractOfAddress (addr : ReqAddr) (s : State) : State :=
  if addr.toNat < s.cfg.deviceCapacity then s else { s with dev := s.dev.lose }

/-- Format A (R47, R63): chip-select low, the opcode, three address bytes; the burst stays open. -/
def sendHeader (op : Operation) (a : WireAddr) (s : State) : XferResult :=
  transferAll 0 (headerBytes op.opcode a) (contractOfOperation op (setCS .low s))

/-- Format S (R48, R70, R71): chip-select low, two bytes, chip-select high. -/
def sendStatusFrame (opc d : Byte) (s : State) : XferResult :=
  (transferAll 0 [opc, d] (setCS .low s)).andThen fun rx s' => .got rx (setCS .high s')

/-! ### Ending an instruction -/

/-- A request that completes responds OK with the data `f` makes of the byte received last (R57). -/
def finishRequest (f : Byte → Byte) (r : XferResult) : Host.Outcome State Fault Refusal :=
  match r with
  | .got rx s => .next (respond .ok (f rx) s)
  | .ended s => .next s
  | .stalled => .fault .stalledTransfer

/-- A wire frame that completes gives no response: it is no request (log entry 21). -/
def finishFrame (r : XferResult) : Host.Outcome State Fault Refusal :=
  match r with
  | .got _ s => .next s
  | .ended s => .next s
  | .stalled => .fault .stalledTransfer

/-- The response data of a request that returns none (R57). -/
def noData (_ : Byte) : Byte := 0

/-- The response data of a request that returns the byte received (R57). -/
def receivedByte (rx : Byte) : Byte := rx

/-- `raise IllegalRequest` (R77): the response, and no state change. -/
def takeIllegalRequest (s : State) : Host.Outcome State Fault Refusal := .next (respond .illegalRequest 0 s)

end Sys2Proof.Machine
end

