-- ==== Sys2Proof/Machine/Framing.lean ====
section
/-! DEFINITION. The three requests of 40_command_framing.md that build an addressed burst. -/

namespace Sys2Proof.Machine

open Sys2Proof

/-- `SEND_CMD op, addr` (R63); the framer checks no address, the contract (R66) concerns the device only. -/
def execSendCmd (op : Operation) (addr : ReqAddr) (s : State) : Host.Outcome State Fault Refusal :=
  unlessFaulted s fun s => finishRequest noData (sendHeader op (wireAddr addr) (contractOfAddress addr s))

/-- `XFER data` (R64). -/
def execXfer (data : Byte) (s : State) : Host.Outcome State Fault Refusal :=
  unlessFaulted s fun s => finishRequest receivedByte (transfer data s)

/-- `END_CMD` (R65). -/
def execEndCmd (s : State) : Host.Outcome State Fault Refusal :=
  unlessFaulted s fun s => .next (respond .ok 0 (setCS .high s))

end Sys2Proof.Machine
end

