-- ==== Sys2Proof/Machine/Reserved.lean ====
section
/-! DEFINITION. The reserved request encodings, each answered IllegalRequest (R77). -/

namespace Sys2Proof.Machine

open Sys2Proof

/-- `SET_MODE` with mode `0b11` (R77). -/
def execSetModeReserved (s : State) : Host.Outcome State Fault Refusal := unlessFaulted s takeIllegalRequest

/-- Kind `0x5` (R77). -/
def execReservedKind5 (s : State) : Host.Outcome State Fault Refusal := unlessFaulted s takeIllegalRequest

/-- Kinds `0x6`, `0x7` (R77). -/
def execReservedKind6To7 (_kind : BitVec 4) (s : State) : Host.Outcome State Fault Refusal :=
  unlessFaulted s takeIllegalRequest

/-- Kinds `0x8` to `0xF` (R77). -/
def execReservedKind8ToF (_kind : BitVec 4) (s : State) : Host.Outcome State Fault Refusal :=
  unlessFaulted s takeIllegalRequest

end Sys2Proof.Machine
end

