-- ==== Sys2Proof/Machine/StatusAccess.lean ====
section
/-! DEFINITION. The self-closing status requests of 41_status_access.md. -/

namespace Sys2Proof.Machine

open Sys2Proof

/-- `SET_MODE mode` for the three modes (R70): `OPC_WRSR` and the mode byte. -/
def setMode (mode : TransferMode) (s : State) : Host.Outcome State Fault Refusal :=
  unlessFaulted s fun s => finishRequest noData (sendStatusFrame opcWrsr (modeCode s.cfg mode) s)

/-- `SET_MODE Byte` (R70). -/
def execSetModeByte (s : State) : Host.Outcome State Fault Refusal := setMode .byte s

/-- `SET_MODE Sequential` (R70). -/
def execSetModeSequential (s : State) : Host.Outcome State Fault Refusal := setMode .sequential s

/-- `SET_MODE Page` (R70). -/
def execSetModePage (s : State) : Host.Outcome State Fault Refusal := setMode .page s

/-- `READ_STATUS` (R71): `OPC_RDSR` and `DUMMY_TX`; the byte received last is the response. -/
def execReadStatus (s : State) : Host.Outcome State Fault Refusal :=
  unlessFaulted s fun s => finishRequest receivedByte (sendStatusFrame opcRdsr dummyTx s)

end Sys2Proof.Machine
end

