-- ==== Sys2Proof/Machine/Wire.lean ====
section
/-! DEFINITION. The wire rows: the frame alone crosses the wire, sent by the framer, the one owner of the bus (R2,
R43), without a request and without a response (log entry 21). A faulted framer sends nothing (R78). -/

namespace Sys2Proof.Machine

open Sys2Proof

/-- READ, `0x03` and the address (R47, R49). -/
def execWireRead (a : WireAddr) (s : State) : Host.Outcome State Fault Refusal :=
  unlessFaulted s fun s => finishFrame (sendHeader .read a s)

/-- WRITE, `0x02` and the address (R47, R49). -/
def execWireWrite (a : WireAddr) (s : State) : Host.Outcome State Fault Refusal :=
  unlessFaulted s fun s => finishFrame (sendHeader .write a s)

/-- RDSR.A, `0x05` and an address: out of contract (R63 corner case 4). -/
def execWireRdsrA (a : WireAddr) (s : State) : Host.Outcome State Fault Refusal :=
  unlessFaulted s fun s => finishFrame (sendHeader .readStatus a s)

/-- WRSR.A, `0x01` and an address: out of contract (R63 corner case 4). -/
def execWireWrsrA (a : WireAddr) (s : State) : Host.Outcome State Fault Refusal :=
  unlessFaulted s fun s => finishFrame (sendHeader .writeStatus a s)

/-- WRSR, `0x01` and the byte that replaces the status register (R27, R48). -/
def execWireWrsr (code : Byte) (s : State) : Host.Outcome State Fault Refusal :=
  unlessFaulted s fun s => finishFrame (sendStatusFrame opcWrsr code s)

/-- RDSR, `0x05` and a byte the device ignores (R27, R48). -/
def execWireRdsr (dummy : Byte) (s : State) : Host.Outcome State Fault Refusal :=
  unlessFaulted s fun s => finishFrame (sendStatusFrame opcRdsr dummy s)

/-- HSREAD, `0x0B`: the framer never places it in opcode position and it has no format, so there is no step (R53,
D16, N10; log entry 22). -/
def execWireHsread (_s : State) : Host.Outcome State Fault Refusal := .refused .opcodeNeverEmitted

/-- RSTIO, `0xFF`: as HSREAD (R53, R74, D16, N10; log entry 22). -/
def execWireRstio (_s : State) : Host.Outcome State Fault Refusal := .refused .opcodeNeverEmitted

end Sys2Proof.Machine
end

