-- ==== Sys2Proof/Machine/Dispatch.lean ====
section
/-! DEFINITION. One arm per instruction (R62 step 3). -/

namespace Sys2Proof.Machine

open Sys2Proof

def exec (i : Instr) (s : State) : Host.Outcome State Fault Refusal :=
  match i with
  | .sendCmd op addr => Sys2Proof.Machine.execSendCmd op addr s
  | .xfer data => Sys2Proof.Machine.execXfer data s
  | .endCmd => Sys2Proof.Machine.execEndCmd s
  | .setModeByte => Sys2Proof.Machine.execSetModeByte s
  | .setModeSequential => Sys2Proof.Machine.execSetModeSequential s
  | .setModePage => Sys2Proof.Machine.execSetModePage s
  | .setModeReserved => Sys2Proof.Machine.execSetModeReserved s
  | .readStatus => Sys2Proof.Machine.execReadStatus s
  | .reservedKind5 => Sys2Proof.Machine.execReservedKind5 s
  | .reservedKind6To7 kind => Sys2Proof.Machine.execReservedKind6To7 kind s
  | .reservedKind8ToF kind => Sys2Proof.Machine.execReservedKind8ToF kind s
  | .wireRead a => Sys2Proof.Machine.execWireRead a s
  | .wireWrite a => Sys2Proof.Machine.execWireWrite a s
  | .wireWrsr code => Sys2Proof.Machine.execWireWrsr code s
  | .wireRdsr dummy => Sys2Proof.Machine.execWireRdsr dummy s
  | .wireRdsrA a => Sys2Proof.Machine.execWireRdsrA a s
  | .wireWrsrA a => Sys2Proof.Machine.execWireWrsrA a s
  | .wireHsread => Sys2Proof.Machine.execWireHsread s
  | .wireRstio => Sys2Proof.Machine.execWireRstio s

end Sys2Proof.Machine
end

