-- ==== Sys2Proof/Machine/Inputs.lean ====
section
/-! DEFINITION. What the outside world does next: taking the next input, and serving the two that are no
instruction (R88, R89). -/

namespace Sys2Proof.Machine

open Sys2Proof

/-- The next input, and the state with it taken. -/
def takeInput (s : State) : Option (Input × State) :=
  match s.inputs with
  | [] => none
  | x :: rest => some (x, { s with inputs := rest })

/-- Puts an input before all others. -/
def pushInput (x : Input) (s : State) : State := { s with inputs := x :: s.inputs }

/-- What an input asks of the machine. -/
inductive Ask where
  /-- Run this row. -/
  | run (i : Instr) (s : State)
  /-- Nothing more: the machine is in this state. -/
  | done (s : State)
  /-- The presented frame is no row of the table. -/
  | noRow
deriving DecidableEq, Repr

/-- The next thing to do. With no input the framer waits and nothing changes (log entry 3). -/
def fetch (s : State) : Ask :=
  match takeInput s with
  | none => .done s
  | some (.framerReset, s') => .done (framerReset s')
  | some (.devicePowerCycle, s') => .done (devicePowerCycle s')
  | some (.present p, s') =>
    match decode p with
    | .ok i => .run i s'
    | .error _ => .noRow

end Sys2Proof.Machine
end

