-- ==== Sys2Proof/Machine/Step.lean ====
section
/-! DEFINITION. One step: the next input is served to completion (R62). -/

namespace Sys2Proof.Machine

open Sys2Proof

/-- One step (R62). -/
def step (s : State) : Host.Outcome State Fault Refusal :=
  match fetch s with
  | .run i s' => exec i s'
  | .done s' => .next s'
  | .noRow => .refused .notATableRow

/-- The state whose next step runs the instruction of these bits, numbered as spec/opcode_table.json
numbers them (log entry 25). -/
def State.withFetchWord (s : State) (nbits w : Nat) : State :=
  pushInput (.present (presentTableWord nbits w)) s

end Sys2Proof.Machine
end

