-- ==== Sys2Proof/Machine/Text.lean ====
section
/-! DEFINITION. The textual form of a request (R60). -/

namespace Sys2Proof.Machine

open Sys2Proof

/-- The name of an Operation (R60). -/
def operationName : Operation → String
  | .readStatus => "ReadStatus"
  | .writeStatus => "WriteStatus"
  | .read => "Read"
  | .write => "Write"

/-- One hexadecimal digit. -/
def hexDigit (n : Nat) : Char := Nat.digitChar (n % 16) |>.toUpper

/-- The last `k` hexadecimal digits of a number. -/
def hexDigits : Nat → Nat → List Char
  | 0, _ => []
  | k + 1, n => hexDigits k (n / 16) ++ [hexDigit n]

/-- A hexadecimal numeral with `0x` (R60). -/
def numeral (k n : Nat) : String := String.ofList ('0' :: 'x' :: hexDigits k n)

/-- A request's line (R60); the other rows have no textual form. -/
def requestText : Instr → Option String
  | .sendCmd op addr => some ("SEND_CMD " ++ operationName op ++ ", " ++ numeral 8 addr.toNat)
  | .xfer data => some ("XFER " ++ numeral 2 data.toNat)
  | .endCmd => some "END_CMD"
  | .setModeByte => some "SET_MODE Byte"
  | .setModeSequential => some "SET_MODE Sequential"
  | .setModePage => some "SET_MODE Page"
  | .readStatus => some "READ_STATUS"
  | .setModeReserved => none
  | .reservedKind5 => none
  | .reservedKind6To7 _ => none
  | .reservedKind8ToF _ => none
  | .wireRead _ => none
  | .wireWrite _ => none
  | .wireWrsr _ => none
  | .wireRdsr _ => none
  | .wireRdsrA _ => none
  | .wireWrsrA _ => none
  | .wireHsread => none
  | .wireRstio => none

end Sys2Proof.Machine
end

