-- ==== Sys2Proof/Machine/Composite.lean ====
section
/-! DEFINITION. The composite sequences of R44 and R61, running a list of instructions
in program order (R38), and running a number of steps. -/

namespace Sys2Proof.Machine

open Sys2Proof

/-- Runs instructions in order, each after the one before it has answered (R38), stopping at a stop. -/
def execAll : List Instr → State → Host.Outcome State Fault Refusal
  | [], s => .next s
  | i :: is, s =>
    match exec i s with
    | .next t => execAll is t
    | .fault r => .fault r
    | .refused r => .refused r

/-- Runs that many steps, stopping at a stop. -/
def runSteps : Nat → State → Host.Outcome State Fault Refusal
  | 0, s => .next s
  | n + 1, s =>
    match step s with
    | .next t => runSteps n t
    | .fault r => .fault r
    | .refused r => .refused r

/-- `WRITE_BURST addr, [v0, ...]` (R61), which is `MemWrite` (R44). -/
def writeBurst (addr : ReqAddr) (vs : List Byte) : List Instr :=
  .sendCmd .write addr :: (vs.map .xfer ++ [.endCmd])

/-- `READ_BURST addr, n` (R61), which is `MemRead` (R44). -/
def readBurst (addr : ReqAddr) (n : Nat) : List Instr :=
  .sendCmd .read addr :: (List.replicate n (.xfer dummyTx) ++ [.endCmd])

/-- `WRITE_BYTE addr, v` (R61). -/
def writeByte (addr : ReqAddr) (v : Byte) : List Instr := writeBurst addr [v]

/-- `READ_BYTE addr` (R61). -/
def readByte (addr : ReqAddr) : List Instr := readBurst addr 1

end Sys2Proof.Machine
end

