-- ==== Sys2Proof/Machine/Trace.lean ====
section
/-! DEFINITION. Reading a trace (R13): wire bytes, chip-select levels, bursts, opcodes. -/

namespace Sys2Proof.Machine

open Sys2Proof

/-- The byte an event sent or tried to send. -/
def Event.sent : Event → Option Byte
  | .cs _ => none
  | .t tx _ => some tx
  | .tf tx => some tx

/-- The level an event sets. -/
def Event.level : Event → Option Level
  | .cs l => some l
  | .t _ _ => none
  | .tf _ => none

/-- The wire bytes of a trace: its `tx` values in order (R13). -/
def wireBytes (es : List Event) : List Byte := es.filterMap Event.sent

/-- The levels of a trace's `CS` events in order. -/
def csLevels (es : List Event) : List Level := es.filterMap Event.level

/-- The level the line has after a trace that started at level `l`. -/
def lineAfter (l : Level) (es : List Event) : Level := (csLevels es).getLast?.getD l

/-- The number of transfers that completed (R99). -/
def transferCount (es : List Event) : Nat :=
  es.countP fun e => match e with
    | .t _ _ => true
    | .cs _ => false
    | .tf _ => false

/-- The bursts of a trace (R13): the transfers between a `CS(0)` that follows a high line and the next
`CS(1)`. The argument is the burst open at the start, if one is. -/
def burstsFrom : Option (List (Byte × Byte)) → List Event → List (List (Byte × Byte))
  | _, [] => []
  | none, .cs .low :: es => burstsFrom (some []) es
  | some b, .cs .low :: es => burstsFrom (some b) es
  | none, .cs .high :: es => burstsFrom none es
  | some b, .cs .high :: es => b :: burstsFrom none es
  | none, .t _ _ :: es => burstsFrom none es
  | some b, .t tx rx :: es => burstsFrom (some (b ++ [(tx, rx)])) es
  | o, .tf _ :: es => burstsFrom o es

/-- The bursts of a trace that starts with the line high. -/
def bursts (es : List Event) : List (List (Byte × Byte)) := burstsFrom none es

/-- The bytes in opcode position: those right after a `CS(0)` (R53, R67). -/
def opcodesOf : List Event → List Byte
  | [] => []
  | .cs .low :: .t tx rx :: es => tx :: opcodesOf (.t tx rx :: es)
  | .cs .low :: .tf tx :: es => tx :: opcodesOf (.tf tx :: es)
  | _ :: es => opcodesOf es

/-- The number of edges of the line in a trace that starts at level `l`: a `CS` event at the level the line has is
none (R11, D21). -/
def edgeCount : Level → List Level → Nat
  | _, [] => 0
  | l, x :: ls => (if x = l then 0 else 1) + edgeCount x ls

/-- Levels alternate, the first being `l` (R67). -/
def alternates : Level → List Level → Bool
  | _, [] => true
  | .low, x :: ls => x == .low && alternates .high ls
  | .high, x :: ls => x == .high && alternates .low ls

/-- No transfer happens while the line, at level `l` to begin with, is high (R67). -/
def noTransferWhileHigh : Level → List Event → Bool
  | _, [] => true
  | _, .cs l :: es => noTransferWhileHigh l es
  | l, .t _ _ :: es => l == .low && noTransferWhileHigh l es
  | l, .tf _ :: es => l == .low && noTransferWhileHigh l es

/-- A bus fault is recorded in the trace (R76). -/
def hasBusFault (es : List Event) : Bool :=
  es.any fun e => match e with
    | .tf _ => true
    | .cs _ => false
    | .t _ _ => false

end Sys2Proof.Machine
end

