-- ==== Sys2Proof/Safety.lean ====
section
/-! DEFINITION. What a safe run is: the client contract of R66, a specified device, and the invariant of the step. -/

namespace Sys2Proof.Machine

open Sys2Proof

/-! ### The client contract (R66) -/

/-- Where a client is in the contract's grammar: the mode the most recent `SET_MODE` selected since device
power-on, and the address and number of data bytes of the open burst. -/
structure Contract where
  mode  : Option TransferMode
  burst : Option (Nat × Nat)
deriving DecidableEq, Repr

/-- Since device power-on nothing has been issued. -/
def Contract.start : Contract := { mode := none, burst := none }

/-- A sequence begins (R66 counts it from the framer's reset): no burst is open, and the mode is the one selected
since device power-on, which may be before the reset. -/
def Contract.fresh (mode : Option TransferMode) : Contract := { mode := mode, burst := none }

/-- A self-closing item comes between bursts only. -/
def Contract.between (c : Contract) (next : Contract) : Option Contract :=
  if c.burst.isNone then some next else none

/-- One request of a well-formed sequence (R66); any other instruction breaks the contract. -/
def Contract.next (cap : Nat) (c : Contract) : Instr → Option Contract
  | .sendCmd op a =>
    if c.burst.isNone && (op == .read || op == .write) && c.mode.isSome && decide (a.toNat < cap)
    then some { c with burst := some (a.toNat, 0) } else none
  | .xfer _ =>
    match c.burst with
    | none => none
    | some (a, n) =>
      if decide (a + (n + 1) ≤ cap) && (n == 0 || c.mode == some .sequential)
      then some { c with burst := some (a, n + 1) } else none
  | .endCmd => if c.burst.isSome then some { c with burst := none } else none
  | .setModeByte => c.between { c with mode := some .byte }
  | .setModeSequential => c.between { c with mode := some .sequential }
  | .setModePage => c.between { c with mode := some .page }
  | .readStatus => c.between c
  | .setModeReserved => none
  | .reservedKind5 => none
  | .reservedKind6To7 _ => none
  | .reservedKind8ToF _ => none
  | .wireRead _ => none
  | .wireWrite _ => none
  | .wireWrsr _ => none
  | .wireRdsr _ => none
  | .wireRdsrA _ => none
  | .wireWrsrA _ => none
  | .wireHsread => none
  | .wireRstio => none

/-- A sequence of requests that is well-formed or in progress (R66), and where it ends. -/
def Contract.run (cap : Nat) : Contract → List Instr → Option Contract
  | c, [] => some c
  | c, i :: is =>
    match c.next cap i with
    | none => none
    | some c' => Contract.run cap c' is

/-- A well-formed sequence since reset (R66); `mode` is the one selected since device power-on before it. -/
def wellFormedSequence (cap : Nat) (mode : Option TransferMode) (is : List Instr) : Bool :=
  match Contract.run cap (.fresh mode) is with
  | none => false
  | some c => c.burst.isNone

/-- One input of the outside world. A framer reset begins a new sequence and keeps the mode (R66, R89). A device
power-cycle forgets the mode (R66: since device power-on, R73); inside an open burst it leaves an addressed item
without a `SET_MODE` since power-on before it, which breaks the contract. -/
def Contract.input (cap : Nat) (c : Contract) : Input → Option Contract
  | .present (.request w) => c.next cap (decodeRequest w)
  | .present (.frame _) => none
  | .framerReset => some (.fresh c.mode)
  | .devicePowerCycle => c.between .start

/-- Inputs that keep the contract, with resets and power-cycles among them, and where they end. -/
def Contract.runInputs (cap : Nat) : Contract → List Input → Option Contract
  | c, [] => some c
  | c, x :: xs =>
    match c.input cap x with
    | none => none
    | some c' => Contract.runInputs cap c' xs

/-- A request that opens an item of the grammar (R66): chip-select falls once for it (R67). -/
def startsItem : Instr → Bool
  | .sendCmd _ _ => true
  | .setModeByte => true
  | .setModeSequential => true
  | .setModePage => true
  | .readStatus => true
  | _ => false

/-- A request that completes an item of the grammar (R66): chip-select rises once for it (R67). -/
def endsItem : Instr → Bool
  | .endCmd => true
  | .setModeByte => true
  | .setModeSequential => true
  | .setModePage => true
  | .readStatus => true
  | _ => false

/-- The number of transfers an instruction makes on a transport that completes them (R99; the wire rows are the frames
of R47 and R48). -/
def transfersOf : Instr → Nat
  | .sendCmd _ _ => 4
  | .xfer _ => 1
  | .endCmd => 0
  | .setModeByte => 2
  | .setModeSequential => 2
  | .setModePage => 2
  | .setModeReserved => 0
  | .readStatus => 2
  | .reservedKind5 => 0
  | .reservedKind6To7 _ => 0
  | .reservedKind8ToF _ => 0
  | .wireRead _ => 4
  | .wireWrite _ => 4
  | .wireWrsr _ => 2
  | .wireRdsr _ => 2
  | .wireRdsrA _ => 4
  | .wireWrsrA _ => 4
  | .wireHsread => 0
  | .wireRstio => 0

/-- The two forms a burst of a well-formed sequence has (R67): a Format A header with opcode `0x02` or `0x03`
and any data bytes, or a Format S frame of exactly two bytes with opcode `0x01` or `0x05`. -/
def burstForm : List Byte → Bool
  | [opc, _] => opc == 0x01 || opc == 0x05
  | opc :: _ :: _ :: _ :: _ => opc == 0x02 || opc == 0x03
  | _ => false

/-! ### Safe states -/

/-- No bus fault recorded and the device specified: the premise of every claim about the device (R66, R78). -/
def State.safe (s : State) : Bool := s.fault == .none && !s.dev.lost

/-- The next `n` transfers complete. -/
def State.answersOk (n : Nat) (s : State) : Bool := (s.answers.take n).all (· == .ok)

/-- Every coming transfer completes: R96's and C9's assumption that an SPI transfer always completes. -/
def State.allAnswersOk (s : State) : Bool := s.answers.all (· == .ok)

/-- Nothing open and nothing faulted: the line is high, the device idle and specified. -/
def State.ready (s : State) : Bool := s.safe && s.csN == .high && s.dev.phase == .idle

/-! ### The invariant of the step -/

/-- Between two steps the device is idle and its counter holds no value, or it is past the header of an
addressed burst and the counter holds one (R19), with a mode selected (R73). The value is at most the capacity, but
where it is the free value after a data byte in Byte or Page mode (R29, R30). Of a device that is unspecified nothing
is said but that it is in no phase of a burst (log entry 31). -/
def Device.counterWf (cap : Nat) (d : Device) : Bool :=
  if d.lost then d.phase == .idle
  else
    match d.phase, d.ctr with
    | .idle, none => true
    | .data _ first, some a => d.mode.isSome && (decide (a ≤ cap) || (!first && d.mode != some .sequential))
    | _, _ => false

/-- The device's part: memory in its canonical form and inside the array (R24), the counter as R19 says. -/
def Device.inv (cap : Nat) (d : Device) : Bool :=
  Memory.wf d.mem && d.mem.all (fun c => decide (c.1 < cap)) && d.counterWf cap

/-- The line is as the trace left it (R11), `fault` is set exactly if the trace holds a bus fault (R12), no
burst is open at a specified device while the line is high (R27, R32), a fault leaves the device unspecified
(U9). -/
def State.inv (s : State) : Bool :=
  s.cfg.wf && s.dev.inv s.cfg.deviceCapacity &&
  s.csN == lineAfter .high s.trace &&
  (s.fault == .transportError) == hasBusFault s.trace &&
  (s.csN == .low || s.dev.phase == .idle) &&
  (s.fault == .none || s.dev.lost)

/-! ### What the framer can depend on -/

/-- An event without the byte received. -/
def Event.hideRx : Event → Event
  | .cs l => .cs l
  | .t tx _ => .t tx 0
  | .tf tx => .tf tx

/-- Two states that agree on what the framer sends, reports and is told, whatever the line, the device and the
bytes received are. -/
structure State.SameWire (s t : State) : Prop where
  cfg       : s.cfg = t.cfg
  fault     : s.fault = t.fault
  trace     : s.trace.map Event.hideRx = t.trace.map Event.hideRx
  responses : s.responses.map Response.err = t.responses.map Response.err
  inputs    : s.inputs = t.inputs
  answers   : s.answers = t.answers

/-- Agreement of two outcomes, given agreement of states. -/
def SameOutcome (R : State → State → Prop) : Host.Outcome State Fault Refusal → Host.Outcome State Fault Refusal → Prop
  | .next s, .next t => R s t
  | .fault a, .fault b => a = b
  | .refused a, .refused b => a = b
  | _, _ => False

end Sys2Proof.Machine
end

