-- ==== Sys2Proof/Certificates/Slice0/Obligations.lean ====
section
/-! DEFINITION. The statements for the provers. Each docstring names the rules of spec/ it formalises. -/

open Sys2Proof Sys2Proof.Machine

/-! ### Encodings (30_encoding.md) -/

/-- R47, R48, R53 to R56: no bit of an encoding is dropped. -/
def Obligations.DecodeEncodeAgree : Prop :=
  ∀ i : Instr, i.wellFormed = true → decode (encode i) = .ok i

/-- R47, R48, R53: a wire frame has one meaning: the bytes a row was read from are the row's own bytes. -/
def Obligations.FrameHasOneReading : Prop :=
  ∀ (bytes : List Byte) (i : Instr), decode (.frame bytes) = .ok i → encode i = .frame bytes ∧ i.isRequest = false

/-- R54: a field a kind does not use is ignored; the used fields reach the instruction, whatever the others are. -/
def Obligations.UnusedRequestFieldsIgnored : Prop :=
  ∀ (op mode : BitVec 2) (addr : ReqAddr) (data : Byte),
    decodeRequest (reqWord 0x0 op mode addr data) = .sendCmd (operationOfCode op) addr ∧
    decodeRequest (reqWord 0x1 op mode addr data) = .xfer data ∧
    decodeRequest (reqWord 0x2 op mode addr data) = .endCmd ∧
    decodeRequest (reqWord 0x3 op mode addr data) = setModeOfCode mode ∧
    decodeRequest (reqWord 0x4 op mode addr data) = .readStatus

/-- R55, R77: every word of a reserved kind is a reserved row, whatever its fields. -/
def Obligations.ReservedKindsDecodeToReservedRows : Prop :=
  ∀ (kind : BitVec 4) (op mode : BitVec 2) (addr : ReqAddr) (data : Byte), 5#4 ≤ kind →
    decodeRequest (reqWord kind op mode addr data) =
      if kind = 5#4 then .reservedKind5
      else if kind = 6#4 ∨ kind = 7#4 then .reservedKind6To7 kind
      else .reservedKind8ToF kind

/-- R56: the codes of the `op` and `mode` fields; every `op` code is legal in `SEND_CMD`, mode `0b11` is refused. -/
def Obligations.OperandCodesAreTheTable : Prop :=
  operationOfCode 0b00 = .readStatus ∧ operationOfCode 0b01 = .writeStatus ∧
  operationOfCode 0b10 = .read ∧ operationOfCode 0b11 = .write ∧
  setModeOfCode 0b00 = .setModeByte ∧ setModeOfCode 0b01 = .setModeSequential ∧
  setModeOfCode 0b10 = .setModePage ∧ setModeOfCode 0b11 = .setModeReserved ∧
  (∀ (op mode : BitVec 2) (addr : ReqAddr) (data : Byte),
    decodeRequest (reqWord 0x0 op mode addr data) = .sendCmd (operationOfCode op) addr ∧
    decodeRequest (reqWord 0x3 op mode addr data) = setModeOfCode mode) ∧
  ∀ s : State, s.fault = .none →
    exec (setModeOfCode 0b11) s = .next { s with responses := s.responses ++ [⟨.illegalRequest, 0⟩] }

/-- Words written out from the tables of R47, R48, R53 to R56 (vectors V2, V6b, V11, V16, V20, V26, V29 of
95_test_vectors.md and the wire rows) decode to the instructions they stand for. -/
def Obligations.WrittenOutWordsDecode : Prop :=
  decodeTableWord 48 0x0C0001234500 = some (.sendCmd .write 0x00012345) ∧
  decodeTableWord 48 0x08AB12345600 = some (.sendCmd .read 0xAB123456) ∧
  decodeTableWord 48 0x10000000005A = some (.xfer 0x5A) ∧
  decodeTableWord 48 0x2FFFFFFFFFFF = some .endCmd ∧
  decodeTableWord 48 0x310000000000 = some .setModeSequential ∧
  decodeTableWord 48 0x400000000000 = some .readStatus ∧
  decodeTableWord 48 0x500000000000 = some .reservedKind5 ∧
  decodeTableWord 32 0x03012345 = some (.wireRead 0x012345) ∧
  decodeTableWord 16 0x0140 = some (.wireWrsr 0x40) ∧
  decodeTableWord 8 0xFF = some .wireRstio

/-- R49, R51: the opcode map and the mode byte table, the Sequential byte as configured. -/
def Obligations.OpcodeAndModeTables : Prop :=
  Operation.readStatus.opcode = 0x05 ∧ Operation.writeStatus.opcode = 0x01 ∧
  Operation.read.opcode = 0x03 ∧ Operation.write.opcode = 0x02 ∧
  ∀ cfg : Config,
    modeCode cfg .byte = 0x00 ∧ modeCode cfg .page = 0x80 ∧
    modeCode cfg .sequential = (match cfg.seqModeCode with | .code40 => 0x40 | .code41 => 0x41)

/-- R50, R68: the address bytes are the shifted and masked address, and together spell `addr mod 2^24`. -/
def Obligations.AddressBytesSpellTheAddress : Prop :=
  ∀ addr : ReqAddr,
    (addrByte1 (wireAddr addr)).toNat = ((addr >>> 16) &&& 0xFF).toNat ∧
    (addrByte2 (wireAddr addr)).toNat = ((addr >>> 8) &&& 0xFF).toNat ∧
    (addrByte3 (wireAddr addr)).toNat = (addr &&& 0xFF).toNat ∧
    (addrByte1 (wireAddr addr) ++ addrByte2 (wireAddr addr) ++ addrByte3 (wireAddr addr)).toNat =
      addr.toNat % 2 ^ 24

/-! ### The step, reset, power-cycle -/

/-- R62: when what is presented decodes to a well-formed instruction, the step is exec of it, on the state with
that input taken; nothing else is added around it. -/
def Obligations.StepRunsDecodedInstruction : Prop :=
  ∀ (s : State) (p : Presented) (rest : List Input) (i : Instr), s.inputs = .present p :: rest →
    decode p = .ok i → i.wellFormed = true → step s = exec i { s with inputs := rest }

/-- R23: the values after reset, for the device as it is after power-on. The contents of status and memory are
the free values, so nothing is said of them. -/
def Obligations.ResetStateHasSpecValues : Prop :=
  State.reset.csN = .high ∧ State.reset.fault = .none ∧ State.reset.trace = [] ∧ State.reset.dev.ctr = none ∧
  State.reset.dev.phase = .idle ∧ State.reset.dev.statusKnown = false ∧ State.reset.dev.mem = []

/-- R88 (and R32, R78, R89): a framer reset takes the reset values from any state, gives no response, sends
nothing; at a device in the data phase of a burst, or with no burst, the burst ends and status and memory keep
their values.
Log entry 27: a device unspecified before counts as specified afresh. -/
def Obligations.FramerResetTakesResetValues : Prop :=
  ∀ (s : State) (rest : List Input), s.inputs = .framerReset :: rest →
    ∃ t, step s = .next t ∧ t.csN = .high ∧ t.fault = .none ∧ t.trace = [] ∧ t.responses = s.responses ∧
      t.cfg = s.cfg ∧ t.inputs = rest ∧ t.answers = s.answers ∧ t.draws = s.draws ∧
      t.dev.lost = false ∧ t.dev.phase = .idle ∧
      (s.inv = true → s.dev.lost = false → t.dev.ctr = none ∧ t.dev.status = s.dev.status ∧
        t.dev.statusKnown = s.dev.statusKnown ∧ ∀ a, t.dev.byteAt a = s.dev.byteAt a)

/-- R89: after a power-cycle of the device memory and status hold fresh unspecified contents, no burst is open,
no mode is known; the framer is as it was. Log entry 24: an unspecified device stays so. -/
def Obligations.PowerCycleForgetsTheDevice : Prop :=
  ∀ (s : State) (rest : List Input), s.inputs = .devicePowerCycle :: rest →
    ∃ t, step s = .next t ∧ t.csN = s.csN ∧ t.fault = s.fault ∧ t.trace = s.trace ∧ t.responses = s.responses ∧
      t.cfg = s.cfg ∧ t.inputs = rest ∧ t.answers = s.answers ∧ t.draws = s.draws ∧
      t.dev.phase = .idle ∧ t.dev.ctr = none ∧ t.dev.statusKnown = false ∧ t.dev.lost = s.dev.lost ∧
      t.dev.status = Config.freeStatus (s.dev.epoch + 1) ∧
      ∀ a, t.dev.byteAt a = Config.freeMem (s.dev.epoch + 1) a

/-- R88, R89, R32: a reset that arrives during any transfer of a request abandons the request without a response, gives
the framer its reset values and ends the burst. Where the transfer was a data byte of a specified burst, status and
every byte of memory are as they were, but the byte a Write burst was storing. Where it was the data byte of a status
command on a high line, past the opcode that is its whole header (R9), `READ_STATUS` leaves status and memory as they
were and `SET_MODE` memory (R26, R35, R71).
The model's choices: the byte a cut Write burst or a cut `SET_MODE` was writing is free, and after the latter no mode is
known, log entry 7; the device counts as specified afresh, log entry 27. -/
def Obligations.ResetDuringTransferAbandonsRequest : Prop :=
  ∀ (i : Instr) (k : Nat) (s : State) (rest : List Answer), i.isRequest = true → k < transfersOf i → s.fault = .none →
    s.answers = List.replicate k .ok ++ .reset :: rest →
    ∃ t, exec i s = .next t ∧ t.csN = .high ∧ t.fault = .none ∧ t.trace = [] ∧
      t.responses = s.responses ∧ t.answers = rest ∧ t.cfg = s.cfg ∧ t.inputs = s.inputs ∧
      t.dev.lost = false ∧ t.dev.phase = .idle ∧ t.dev.ctr = none ∧
      (∀ d a, i = .xfer d → s.dev.lost = false → s.dev.dataAddress s.cfg.deviceCapacity = some a →
        t.dev.status = s.dev.status ∧ t.dev.statusKnown = s.dev.statusKnown ∧
        ∀ b, s.dev.storeAddress s.cfg.deviceCapacity ≠ some b → t.dev.byteAt b = s.dev.byteAt b) ∧
      (i ∈ [Instr.setModeByte, .setModeSequential, .setModePage, .readStatus] → k = 1 → s.dev.lost = false →
        s.csN = .high → (∀ b, t.dev.byteAt b = s.dev.byteAt b) ∧
          if i = .readStatus then t.dev.status = s.dev.status ∧ t.dev.statusKnown = s.dev.statusKnown
          else t.dev.mode = none)

/-! ### Completion and result of each request -/

/-- R63: `SEND_CMD` completes in every unfaulted state whose next four transfers complete: the header goes out
in order, the burst stays open, the response is OK with no data. -/
def Obligations.SendCmdSendsHeader : Prop :=
  ∀ (op : Operation) (addr : ReqAddr) (s : State), s.fault = .none → s.answersOk 4 = true →
    ∃ t r1 r2 r3 r4, exec (.sendCmd op addr) s = .next t ∧
      t.trace = s.trace ++ [.cs .low, .t op.opcode r1, .t ((addr >>> 16).setWidth 8) r2,
        .t ((addr >>> 8).setWidth 8) r3, .t (addr.setWidth 8) r4] ∧
      t.csN = .low ∧ t.fault = .none ∧ t.responses = s.responses ++ [⟨.ok, 0⟩] ∧
      t.cfg = s.cfg ∧ t.inputs = s.inputs ∧ t.answers = s.answers.drop 4 ∧ t.draws = s.draws + 4

/-- R27, R63, R66, R73, R93, U15: what `SEND_CMD` does to the device: a Read or Write command on a high line, with a mode
selected and the request's address below the capacity, opens the data phase with the counter loaded and changes
nothing else; every other one leaves the device unspecified, one whose high address bits are dropped on the wire too.
Which cases are unspecified is the model's reading, log entries 12, 14, 15, 16. -/
def Obligations.SendCmdLoadsCounterOrLosesDevice : Prop :=
  ∀ (op : Operation) (addr : ReqAddr) (s t : State), s.inv = true → s.fault = .none → s.answersOk 4 = true →
    exec (.sendCmd op addr) s = .next t →
      if s.dev.lost = false ∧ s.csN = .high ∧ (op = .read ∨ op = .write) ∧ s.dev.mode.isSome = true ∧
          addr.toNat < s.cfg.deviceCapacity
      then t.dev = { s.dev with phase := .data (if op = .read then .read else .write) true, ctr := some addr.toNat }
      else t.dev.lost = true

/-- R64: `XFER` completes in every unfaulted state whose next transfer completes: one transfer of the data byte
unchanged, the received byte as response, the line as it was. -/
def Obligations.XferTransfersOneByte : Prop :=
  ∀ (data : Byte) (s : State), s.fault = .none → s.answersOk 1 = true →
    ∃ t rx, exec (.xfer data) s = .next t ∧ t.trace = s.trace ++ [.t data rx] ∧
      t.responses = s.responses ++ [⟨.ok, rx⟩] ∧ t.csN = s.csN ∧ t.fault = .none ∧
      t.cfg = s.cfg ∧ t.inputs = s.inputs ∧ t.answers = s.answers.drop 1 ∧ t.draws = s.draws + 1

/-- R65: `END_CMD` completes in every unfaulted state: the line is high, `CS(1)` is recorded, the response is OK. -/
def Obligations.EndCmdRaisesChipSelect : Prop :=
  ∀ s : State, s.fault = .none →
    ∃ t, exec .endCmd s = .next t ∧ t.trace = s.trace ++ [.cs .high] ∧ t.csN = .high ∧ t.fault = .none ∧
      t.responses = s.responses ++ [⟨.ok, 0⟩] ∧ t.cfg = s.cfg ∧ t.inputs = s.inputs ∧
      t.answers = s.answers ∧ t.draws = s.draws

/-- R70: `SET_MODE` completes for each of the three modes: its four events, the line high, the response OK. -/
def Obligations.SetModeSendsStatusWrite : Prop :=
  ∀ (i : Instr) (m : TransferMode) (s : State),
    (i, m) ∈ [(Instr.setModeByte, TransferMode.byte), (.setModeSequential, .sequential), (.setModePage, .page)] →
    s.fault = .none → s.answersOk 2 = true →
    ∃ t r1 r2, exec i s = .next t ∧
      t.trace = s.trace ++ [.cs .low, .t 0x01 r1, .t (modeCode s.cfg m) r2, .cs .high] ∧
      t.csN = .high ∧ t.fault = .none ∧ t.responses = s.responses ++ [⟨.ok, 0⟩] ∧
      t.cfg = s.cfg ∧ t.inputs = s.inputs ∧ t.answers = s.answers.drop 2 ∧ t.draws = s.draws + 2

/-- R70, R72, R27: at a specified device with the line high, `SET_MODE` replaces the whole status register by the
mode byte, whatever it was, so that the mode is selected; memory keeps every byte; a second one leaves the
device as the first did. -/
def Obligations.SetModeReplacesDeviceStatus : Prop :=
  ∀ (i : Instr) (m : TransferMode) (s t : State),
    (i, m) ∈ [(Instr.setModeByte, TransferMode.byte), (.setModeSequential, .sequential), (.setModePage, .page)] →
    s.inv = true → s.safe = true → s.csN = .high → s.answersOk 4 = true → exec i s = .next t →
      t.dev.status = modeCode s.cfg m ∧ t.dev.mode = some m ∧ t.dev.lost = false ∧ t.dev.phase = .idle ∧
      t.dev.ctr = none ∧ (∀ a, t.dev.byteAt a = s.dev.byteAt a) ∧
      ∃ u, exec i t = .next u ∧ u.dev = t.dev ∧ u.trace.length = t.trace.length + 4

/-- R71: `READ_STATUS` completes: its four events, the byte of the second transfer as the response. -/
def Obligations.ReadStatusSendsStatusRead : Prop :=
  ∀ s : State, s.fault = .none → s.answersOk 2 = true →
    ∃ t r1 r2, exec .readStatus s = .next t ∧
      t.trace = s.trace ++ [.cs .low, .t 0x05 r1, .t 0x00 r2, .cs .high] ∧
      t.csN = .high ∧ t.fault = .none ∧ t.responses = s.responses ++ [⟨.ok, r2⟩] ∧
      t.cfg = s.cfg ∧ t.inputs = s.inputs ∧ t.answers = s.answers.drop 2 ∧ t.draws = s.draws + 2

/-- R71 (corner case 3), R18, U13: at a specified device with the line high the response's bits 7:6 are those of
the status register, and the device does not change. -/
def Obligations.ReadStatusReturnsModeBits : Prop :=
  ∀ s t : State, s.inv = true → s.safe = true → s.csN = .high → s.answersOk 2 = true →
    exec .readStatus s = .next t →
      ∃ rx : Byte, t.responses = s.responses ++ [⟨.ok, rx⟩] ∧
        rx.extractLsb' 6 2 = s.dev.status.extractLsb' 6 2 ∧ t.dev = s.dev

/-- R77: each reserved row, and each word of a reserved kind or of `SET_MODE` with mode `0b11`, in an unfaulted
state, is answered IllegalRequest with data 0, and nothing else changes, so the next request is treated normally. -/
def Obligations.ReservedRequestsAreIllegal : Prop :=
  ∀ s : State, s.fault = .none →
    (∀ (kind : BitVec 4) (i : Instr),
      i ∈ [Instr.setModeReserved, .reservedKind5, .reservedKind6To7 kind, .reservedKind8ToF kind] →
      exec i s = .next { s with responses := s.responses ++ [⟨.illegalRequest, 0⟩] }) ∧
    (∀ w : Req, 5#4 ≤ reqKind w ∨ (reqKind w = 3#4 ∧ reqMode w = 3#2) →
      exec (decodeRequest w) s = .next { s with responses := s.responses ++ [⟨.illegalRequest, 0⟩] })

/-- R78: in the faulted state every request is answered TransportError with data 0 and nothing else changes; a
framer reset clears the record. -/
def Obligations.FaultedStateRefusesEverything : Prop :=
  ∀ (i : Instr) (s : State), s.fault = .transportError →
    (i.isRequest = true →
      exec i s = .next { s with responses := s.responses ++ [⟨.transportError, 0⟩] }) ∧
    (framerReset s).fault = .none

/-! ### Bus faults and stalls -/

/-- R76: a bus fault ends the request at the faulting transfer: `TF(tx)` is recorded after the events before it,
`fault` is set, the line keeps its level, the response is TransportError with data 0; for `SEND_CMD` at its
k-th transfer, for `XFER`, and for the status requests at either transfer. -/
def Obligations.BusFaultEndsTheRequest : Prop :=
  ∀ (s : State) (k : Nat) (rest : List Answer), s.fault = .none →
    s.answers = List.replicate k .ok ++ .busFault :: rest →
    (∀ (op : Operation) (addr : ReqAddr), k < 4 →
      ∃ t es, exec (.sendCmd op addr) s = .next t ∧ es.length = k ∧
        t.trace = s.trace ++ (.cs .low :: es) ++
          (headerBytes op.opcode (wireAddr addr))[k]?.toList.map Event.tf ∧
        wireBytes es = (headerBytes op.opcode (wireAddr addr)).take k ∧ hasBusFault es = false ∧
        t.csN = .low ∧ t.fault = .transportError ∧ t.dev.lost = true ∧ t.answers = rest ∧
        t.responses = s.responses ++ [⟨.transportError, 0⟩] ∧ t.cfg = s.cfg ∧ t.inputs = s.inputs) ∧
    (∀ data : Byte, k = 0 →
      ∃ t, exec (.xfer data) s = .next t ∧ t.trace = s.trace ++ [.tf data] ∧ t.csN = s.csN ∧
        t.fault = .transportError ∧ t.dev.lost = true ∧ t.answers = rest ∧
        t.responses = s.responses ++ [⟨.transportError, 0⟩] ∧ t.cfg = s.cfg ∧ t.inputs = s.inputs) ∧
    (∀ (i : Instr) (opc d : Byte),
      (i, opc, d) ∈ [(Instr.setModeByte, 0x01, modeCode s.cfg .byte),
        (.setModeSequential, 0x01, modeCode s.cfg .sequential), (.setModePage, 0x01, modeCode s.cfg .page),
        (.readStatus, 0x05, 0x00)] → k < 2 →
      ∃ t es, exec i s = .next t ∧ es.length = k ∧
        t.trace = s.trace ++ (.cs .low :: es) ++ ([opc, d] : List Byte)[k]?.toList.map Event.tf ∧
        wireBytes es = ([opc, d] : List Byte).take k ∧ hasBusFault es = false ∧
        t.csN = .low ∧ t.fault = .transportError ∧ t.dev.lost = true ∧ t.answers = rest ∧
        t.responses = s.responses ++ [⟨.transportError, 0⟩] ∧ t.cfg = s.cfg ∧ t.inputs = s.inputs)

/-- R96, U10: a transfer that never answers never completes: an instruction whose transfers stall, at the first or at a
later one, stops with no next state; where no transfer stalls, it is not stopped so.
The hang as a named fault is the model's form, log entry 6; the wire rows are log entry 21, the two that have no step
in any state log entry 22. -/
def Obligations.StalledTransferHangs : Prop :=
  ∀ (i : Instr) (s : State),
    (∀ (k : Nat) (rest : List Answer), k < transfersOf i → s.fault = .none →
      s.answers = List.replicate k .ok ++ .stall :: rest → exec i s = .fault .stalledTransfer) ∧
    (.stall ∉ s.answers → i ≠ .wireHsread → i ≠ .wireRstio → ∃ t, exec i s = .next t)

/-- R12: `fault` is set exactly when a request's transfers met a bus fault, is never cleared by a request whose transfers
are not cut by a reset, while set every request is answered with the error and does nothing, and a framer reset
clears it. -/
def Obligations.FaultRecordIsSticky : Prop :=
  ∀ (i : Instr) (s t : State), i.isRequest = true → .reset ∉ s.answers → exec i s = .next t →
    (s.fault = .transportError →
      t.fault = .transportError ∧ t = { s with responses := s.responses ++ [⟨.transportError, 0⟩] }) ∧
    (s.fault = .none → (t.fault = .transportError ↔ ∃ es tx, t.trace = s.trace ++ es ++ [.tf tx])) ∧
    (framerReset t).fault = .none

/-! ### The wire rows (log entry 21: as steps they are the model's choice) -/

/-- R12, for the wire rows (log entry 21, the model's choice): while `fault` is set a wire row that has a step is answered
with the error and does nothing; otherwise it sets `fault` exactly when its transfers met a bus fault. -/
def Obligations.WireRowsKeepTheFaultRecord : Prop :=
  ∀ (i : Instr) (s : State), i.isRequest = false → i ≠ .wireHsread → i ≠ .wireRstio →
    (s.fault = .transportError →
      exec i s = .next { s with responses := s.responses ++ [⟨.transportError, 0⟩] }) ∧
    (∀ t, s.fault = .none → .reset ∉ s.answers → exec i s = .next t →
      (t.fault = .transportError ↔ ∃ es tx, t.trace = s.trace ++ es ++ [.tf tx]))

/-- R47, R49: an addressed frame completes: chip-select low, its opcode and its address bytes most significant
first, the burst open; a wire row gives no response. -/
def Obligations.WireHeaderFramesComplete : Prop :=
  ∀ (i : Instr) (opc : Byte) (a : WireAddr) (s : State),
    (i, opc) ∈ [(Instr.wireRead a, 0x03), (.wireWrite a, 0x02), (.wireRdsrA a, 0x05), (.wireWrsrA a, 0x01)] →
    s.fault = .none → s.answersOk 4 = true →
    ∃ t r1 r2 r3 r4, exec i s = .next t ∧
      t.trace = s.trace ++ [.cs .low, .t opc r1, .t ((a >>> 16).setWidth 8) r2, .t ((a >>> 8).setWidth 8) r3,
        .t (a.setWidth 8) r4] ∧
      t.csN = .low ∧ t.fault = .none ∧ t.responses = s.responses ∧
      t.cfg = s.cfg ∧ t.inputs = s.inputs ∧ t.answers = s.answers.drop 4 ∧ t.draws = s.draws + 4

/-- R48: a status frame completes: chip-select low, two bytes, chip-select high.
A status write of any byte is the model's reading, log entry 23. -/
def Obligations.WireStatusFramesComplete : Prop :=
  ∀ (i : Instr) (opc d : Byte) (s : State),
    (i, opc) ∈ [(Instr.wireWrsr d, (0x01 : Byte)), (.wireRdsr d, 0x05)] →
    s.fault = .none → s.answersOk 2 = true →
    ∃ t r1 r2, exec i s = .next t ∧
      t.trace = s.trace ++ [.cs .low, .t opc r1, .t d r2, .cs .high] ∧
      t.csN = .high ∧ t.fault = .none ∧ t.responses = s.responses ∧
      t.cfg = s.cfg ∧ t.inputs = s.inputs ∧ t.answers = s.answers.drop 2 ∧ t.draws = s.draws + 2 ∧
      (s.inv = true → s.dev.lost = false → s.csN = .high → t.dev.lost = false ∧ t.dev.phase = .idle ∧
        (∀ a, t.dev.byteAt a = s.dev.byteAt a) ∧
        t.dev.status = (if opc = 0x01 then d else s.dev.status))

/-- R53, R74, D16, N10: the framer never places `0x0B` or `0xFF` in opcode position and neither has a format, so the two
rows have no step in any state, presented as a frame or run as an instruction.
The refusal by name is the model's form, log entry 22. -/
def Obligations.ReservedOpcodesHaveNoStep : Prop :=
  ∀ s : State,
    exec .wireHsread s = .refused .opcodeNeverEmitted ∧ exec .wireRstio s = .refused .opcodeNeverEmitted ∧
    ∀ (opc : Byte) (rest : List Input), opc = 0x0B ∨ opc = 0xFF → s.inputs = .present (.frame [opc]) :: rest →
      step s = .refused .opcodeNeverEmitted

/-- R46, R47, R63 (the command multiplexer), R66: a `SEND_CMD` that completes is the wire row of its operation with the
address cut to 24 bits, and then the response; with an address out of the contract the framer does the same and the
device alone differs: it is unspecified (log entry 15).
The wire row as a step is log entry 21. -/
def Obligations.SendCmdIsItsWireRow : Prop :=
  ∀ (op : Operation) (addr : ReqAddr) (s t : State), s.fault = .none → s.answersOk 4 = true →
    exec (match op with
      | .read => .wireRead (addr.setWidth 24)
      | .write => .wireWrite (addr.setWidth 24)
      | .readStatus => .wireRdsrA (addr.setWidth 24)
      | .writeStatus => .wireWrsrA (addr.setWidth 24)) s = .next t →
    ∃ dev, exec (.sendCmd op addr) s = .next { t with responses := t.responses ++ [⟨.ok, 0⟩], dev := dev } ∧
      if addr.toNat < s.cfg.deviceCapacity then dev = t.dev else dev.lost = true

/-- R53: the framer never places a byte other than `0x01`, `0x02`, `0x03`, `0x05` in opcode position: no step does,
whatever is presented and whatever the transport answers, bus faults and resets included. The premise on the last
event, an invariant too, says that no step ends between a falling edge and the opcode. -/
def Obligations.OnlyTheFourOpcodesAreEmitted : Prop :=
  ∀ s t : State, s.trace.getLast? ≠ some (.cs .low) →
    (∀ b ∈ opcodesOf s.trace, b ∈ ([0x01, 0x02, 0x03, 0x05] : List Byte)) → step s = .next t →
    t.trace.getLast? ≠ some (.cs .low) ∧ ∀ b ∈ opcodesOf t.trace, b ∈ ([0x01, 0x02, 0x03, 0x05] : List Byte)

/-! ### Frames: what an instruction leaves alone -/

/-- Frame of `XFER` (R11, R18, R27, R64): the line, the fault record, the configuration and the inputs are unchanged;
at a device that stays specified the status register is unchanged, and every byte of memory is, but the one at
the address `storeAddress` computes, which holds the byte sent. -/
def Obligations.XferFrame : Prop :=
  ∀ (data : Byte) (s t : State), s.answersOk 1 = true → exec (.xfer data) s = .next t →
    t.csN = s.csN ∧ t.fault = s.fault ∧ t.cfg = s.cfg ∧ t.inputs = s.inputs ∧
    (s.fault = .none → t.dev.lost = false → s.inv = true →
      t.dev.status = s.dev.status ∧ t.dev.statusKnown = s.dev.statusKnown ∧
      ∀ a, if s.dev.storeAddress s.cfg.deviceCapacity = some a then t.dev.byteAt a = data
           else t.dev.byteAt a = s.dev.byteAt a)

/-- Frame of the instructions that store nothing in device memory (R18, R26, R27): every byte of memory reads as
before at a device that stays specified, the fault record, the configuration and the inputs are unchanged; the
status register is too, but for the instructions that write it. -/
def Obligations.NonStoringFrame : Prop :=
  ∀ (i : Instr) (s t : State), (∀ d, i ≠ .xfer d) → s.answersOk 4 = true → exec i s = .next t →
    t.fault = s.fault ∧ t.cfg = s.cfg ∧ t.inputs = s.inputs ∧
    (t.dev.lost = false → (∀ a, t.dev.byteAt a = s.dev.byteAt a) ∧
      (i ∉ [Instr.setModeByte, .setModeSequential, .setModePage] → (∀ c, i ≠ .wireWrsr c) →
        t.dev.status = s.dev.status ∧ t.dev.statusKnown = s.dev.statusKnown))

/-- R13: the trace only grows, except that a reset empties it. -/
def Obligations.TraceOnlyGrows : Prop :=
  ∀ s t : State, .reset ∉ s.answers → s.inputs.head? ≠ some .framerReset → step s = .next t →
    s.trace <+: t.trace ∧ s.responses <+: t.responses

/-- R57: every request gets exactly one response, laid out as the table says; data only for `XFER` and `READ_STATUS`
with OK. -/
def Obligations.EveryRequestHasOneResponse : Prop :=
  (∀ r : Response, r.word.extractLsb' 0 8 = r.data ∧
    r.word.extractLsb' 8 2 = (match r.err with | .ok => 0b00 | .transportError => 0b01 | .illegalRequest => 0b10)) ∧
  ∀ (i : Instr) (s t : State), i.isRequest = true → .reset ∉ s.answers → exec i s = .next t →
    ∃ r : Response, t.responses = s.responses ++ [r] ∧
      (r.err ≠ .ok ∨ ((∀ d, i ≠ .xfer d) ∧ i ≠ .readStatus) → r.data = 0) ∧
      (r.err = .ok → i.wellFormed = true)

/-! ### The device (20_memory.md) -/

/-- R27, R28, R44: in the data phase of a specified Write burst, at an address `dataAddress` gives, `XFER` stores the
byte there, and in Sequential mode the counter advances by one; in Byte and Page mode it holds some value, of which
nothing is said (R29, R30). -/
def Obligations.WriteBurstByteIsStored : Prop :=
  ∀ (data : Byte) (first : Bool) (a : Nat) (s : State), s.safe = true → s.answersOk 1 = true →
    s.dev.phase = .data .write first → s.dev.ctr = some a → a < s.cfg.deviceCapacity →
    (first = true ∨ s.dev.mode = some .sequential) →
    ∃ t, exec (.xfer data) s = .next t ∧ t.dev.lost = false ∧ t.dev.byteAt a = data ∧
      (∀ b, b ≠ a → t.dev.byteAt b = s.dev.byteAt b) ∧ t.dev.phase = .data .write false ∧
      t.dev.ctr.isSome = true ∧ (s.dev.mode = some .sequential → t.dev.ctr = some (a + 1))

/-- R27, R28, R35: in the data phase of a specified Read burst the response is the memory byte at the counter, whatever
byte is sent; memory does not change, and in Sequential mode the counter advances by one; in Byte and Page mode it
holds some value, of which nothing is said (R29, R30). -/
def Obligations.ReadBurstByteIsReturned : Prop :=
  ∀ (data : Byte) (first : Bool) (a : Nat) (s : State), s.safe = true → s.answersOk 1 = true →
    s.dev.phase = .data .read first → s.dev.ctr = some a → a < s.cfg.deviceCapacity →
    (first = true ∨ s.dev.mode = some .sequential) →
    ∃ t, exec (.xfer data) s = .next t ∧ t.responses = s.responses ++ [⟨.ok, s.dev.byteAt a⟩] ∧
      t.dev = { s.dev with ctr := t.dev.ctr, phase := .data .read false } ∧
      t.dev.ctr.isSome = true ∧ (s.dev.mode = some .sequential → t.dev.ctr = some (a + 1))

/-- R29, R30, R31, R64 (corner case 3), U1, U2, U4, U8: a data byte after the first in Byte or Page mode, at the end of
the array, or with the line high, leaves the device unspecified.
That the device stays so until a framer reset is the model's reading, log entry 12. -/
def Obligations.UndefinedDataByteLosesDevice : Prop :=
  ∀ (data : Byte) (s t : State), s.inv = true → s.fault = .none → s.answersOk 1 = true →
    exec (.xfer data) s = .next t →
    (s.csN = .high ∨
      (∃ kind a, s.dev.phase = .data kind false ∧ s.dev.ctr = some a ∧ s.dev.mode ≠ some .sequential) ∨
      s.dev.ctr = some s.cfg.deviceCapacity) →
    t.dev.lost = true

/-- R66, R92, U7: a command issued while a burst is open, or after the device became unspecified, leaves the device
unspecified, though its own trace is as its rule gives it.
How misuse is recognised is the model's reading, log entries 12, 13. -/
def Obligations.MisuseLosesDevice : Prop :=
  ∀ (i : Instr) (s t : State), startsItem i = true → s.fault = .none → s.answersOk 4 = true →
    (s.csN = .low ∨ s.dev.lost = true) → exec i s = .next t → t.dev.lost = true

/-- R32: `END_CMD` ends the burst: the counter holds no value, the next burst begins with its own opcode, bytes stored
stay stored; with no burst open it changes nothing at the device (R65 corner case 1).
With no burst open: log entry 19. -/
def Obligations.EndCmdEndsTheBurst : Prop :=
  ∀ s t : State, s.inv = true → s.safe = true → exec .endCmd s = .next t →
    t.dev.ctr = none ∧ t.dev.phase = .idle ∧ t.dev.lost = false ∧ t.dev.select.phase = .opened ∧
    (∀ a, t.dev.byteAt a = s.dev.byteAt a) ∧ t.dev.status = s.dev.status ∧
    t.dev.statusKnown = s.dev.statusKnown ∧ (s.csN = .high → t.dev = s.dev)

/-! ### Invariants -/

/-- R11, R12, R19, R21, R24, R27: every step keeps the invariant of Safety.lean: configuration in bounds, memory in its
canonical form and inside the array, counter, line, fault record and trace in agreement. -/
def Obligations.StepKeepsInvariant : Prop :=
  ∀ s t : State, s.inv = true → step s = .next t → t.inv = true

/-- R23: the invariant holds at reset. -/
def Obligations.ResetMeetsInvariant : Prop := State.reset.inv = true

/-- R21: no step changes the configuration. -/
def Obligations.StepKeepsConfiguration : Prop :=
  ∀ s t : State, step s = .next t → t.cfg = s.cfg

/-! ### Whole-machine rules -/

/-- R3, R66: what the framer sends, reports and sets does not depend on the device, on any byte received, nor
on the line's level: two states that agree on the rest go on agreeing, for every instruction. -/
def Obligations.FramerIgnoresLineAndDevice : Prop :=
  ∀ (i : Instr) (s t : State), s.SameWire t → SameOutcome State.SameWire (exec i s) (exec i t)

/-- R67: what follows for the wire from a well-formed sequence, complete or in progress, with no bus fault, whatever mode
was selected before the framer's reset. -/
def Obligations.WellFormedSequenceOnTheWire : Prop :=
  ∀ (is : List Instr) (m : Option TransferMode) (c : Contract) (s : State), s.fault = .none → s.csN = .high →
    s.trace = [] → s.allAnswersOk = true → Contract.run s.cfg.deviceCapacity (.fresh m) is = some c →
    ∃ t, execAll is s = .next t ∧
      alternates .low (csLevels t.trace) = true ∧
      (∀ b ∈ opcodesOf t.trace, b ∈ ([0x01, 0x02, 0x03, 0x05] : List Byte)) ∧
      (∀ b ∈ bursts t.trace, burstForm (b.map Prod.fst) = true) ∧
      t.csN = (if c.burst.isNone then .high else .low) ∧
      (csLevels t.trace).count .low = is.countP startsItem ∧
      (csLevels t.trace).count .high = is.countP endsItem ∧
      noTransferWhileHigh .high t.trace = true ∧ t.fault = .none

/-- R66: a client that keeps the contract, on a transport that always completes, never makes the device unspecified,
and the mode the device is in is the one it selected last since device power-on, also before the sequence began. -/
def Obligations.ContractKeepsDeviceSpecified : Prop :=
  ∀ (is : List Instr) (m : Option TransferMode) (c : Contract) (s : State), s.cfg.wf = true → s.ready = true →
    s.allAnswersOk = true → (m.isSome = true → s.dev.mode = m) →
    Contract.run s.cfg.deviceCapacity (.fresh m) is = some c →
    ∃ t, execAll is s = .next t ∧ t.safe = true ∧ (c.mode.isSome = true → t.dev.mode = c.mode)

/-- R66, R73, R88, R89: the same with framer resets and device power-cycles among the requests, as steps: a reset begins
a new sequence and keeps the mode selected before it, a power-cycle forgets it.
Where they may come is the model's reading, log entries 27 and 30. -/
def Obligations.ContractSurvivesResetsAndPowerCycles : Prop :=
  ∀ (m : Option TransferMode) (c : Contract) (s : State), s.cfg.wf = true → s.ready = true →
    s.allAnswersOk = true → (m.isSome = true → s.dev.mode = m) →
    Contract.runInputs s.cfg.deviceCapacity (.fresh m) s.inputs = some c →
    ∃ t, runSteps s.inputs.length s = .next t ∧ t.safe = true ∧ t.inputs = [] ∧
      (c.mode.isSome = true → t.dev.mode = c.mode)

/-- R44: `MemWrite`: under its conditions the burst leaves `DEV.mem[addr+i] = v[i]` for every i, changes no other byte,
sends exactly its wire bytes and moves chip-select low once and high once. -/
def Obligations.MemWriteStoresBytes : Prop :=
  ∀ (addr : ReqAddr) (vs : List Byte) (s : State), s.cfg.wf = true → s.ready = true → s.allAnswersOk = true →
    s.dev.mode.isSome = true → (vs.length ≤ 1 ∨ s.dev.mode = some .sequential) →
    addr.toNat < s.cfg.deviceCapacity → addr.toNat + vs.length ≤ s.cfg.deviceCapacity →
    ∃ t, execAll (writeBurst addr vs) s = .next t ∧ t.ready = true ∧
      (∀ (k : Nat) (h : k < vs.length), t.dev.byteAt (addr.toNat + k) = vs[k]) ∧
      (∀ a, a < addr.toNat ∨ addr.toNat + vs.length ≤ a → t.dev.byteAt a = s.dev.byteAt a) ∧
      t.dev.status = s.dev.status ∧ t.dev.mode = s.dev.mode ∧
      wireBytes t.trace = wireBytes s.trace ++
        (([0x02, (addr >>> 16).setWidth 8, (addr >>> 8).setWidth 8, addr.setWidth 8] : List Byte) ++ vs) ∧
      csLevels t.trace = csLevels s.trace ++ [.low, .high]

/-- R44: `MemRead`: under its conditions the responses between the first and the last are the bytes
`DEV.mem[addr+i]` in order, nothing in memory changes, and the wire bytes are its own. -/
def Obligations.MemReadReturnsBytes : Prop :=
  ∀ (addr : ReqAddr) (n : Nat) (s : State), s.cfg.wf = true → s.ready = true → s.allAnswersOk = true →
    s.dev.mode.isSome = true → (n ≤ 1 ∨ s.dev.mode = some .sequential) →
    addr.toNat < s.cfg.deviceCapacity → addr.toNat + n ≤ s.cfg.deviceCapacity →
    ∃ t, execAll (readBurst addr n) s = .next t ∧ t.ready = true ∧
      t.responses = s.responses ++ (⟨.ok, 0⟩ ::
        (List.range n).map (fun k => ⟨.ok, s.dev.byteAt (addr.toNat + k)⟩) ++ [⟨.ok, 0⟩]) ∧
      (∀ a, t.dev.byteAt a = s.dev.byteAt a) ∧ t.dev.status = s.dev.status ∧ t.dev.mode = s.dev.mode ∧
      wireBytes t.trace = wireBytes s.trace ++
        (([0x03, (addr >>> 16).setWidth 8, (addr >>> 8).setWidth 8, addr.setWidth 8] : List Byte) ++
          List.replicate n 0x00) ∧
      csLevels t.trace = csLevels s.trace ++ [.low, .high]

/-- R44, S1, S2: what a `WRITE_BURST` stored, a `READ_BURST` of the same address and length returns, byte for byte. -/
def Obligations.WriteThenReadReturnsBytes : Prop :=
  ∀ (addr : ReqAddr) (vs : List Byte) (s : State), s.cfg.wf = true → s.ready = true → s.allAnswersOk = true →
    s.dev.mode.isSome = true → (vs.length ≤ 1 ∨ s.dev.mode = some .sequential) →
    addr.toNat < s.cfg.deviceCapacity → addr.toNat + vs.length ≤ s.cfg.deviceCapacity →
    ∃ t u, execAll (writeBurst addr vs) s = .next t ∧ execAll (readBurst addr vs.length) t = .next u ∧
      u.responses = t.responses ++ (⟨.ok, 0⟩ :: vs.map (fun v => ⟨.ok, v⟩) ++ [⟨.ok, 0⟩])

/-- R99: the exact counts: the transfers of each request; a burst of n data bytes makes `4 + n` and two chip-select edges,
n one-byte bursts, each a write or a read, `5n` and `2n`. The edges are counted on a line that is high, where every burst
begins (R92); the levels set are the same on any line. -/
def Obligations.TransferCountsAreExact : Prop :=
  ∀ s : State, s.fault = .none → s.allAnswersOk = true →
    (∀ (i : Instr) (t : State), exec i s = .next t →
      (∀ op addr, i = .sendCmd op addr → transferCount t.trace = transferCount s.trace + 4) ∧
      (∀ d, i = .xfer d → transferCount t.trace = transferCount s.trace + 1) ∧
      (i = .endCmd → transferCount t.trace = transferCount s.trace) ∧
      (i ∈ [Instr.setModeByte, .setModeSequential, .setModePage, .readStatus] →
        transferCount t.trace = transferCount s.trace + 2)) ∧
    (∀ (addr : ReqAddr) (vs : List Byte) (t : State),
      (execAll (writeBurst addr vs) s = .next t ∨ execAll (readBurst addr vs.length) s = .next t) →
      ∃ es, t.trace = s.trace ++ es ∧ transferCount es = 4 + vs.length ∧ csLevels es = [.low, .high] ∧
        (s.csN = .high → edgeCount s.csN (csLevels es) = 2)) ∧
    (∀ (bs : List (Bool × ReqAddr × Byte)) (t : State),
      execAll (bs.flatMap fun p => if p.1 then writeByte p.2.1 p.2.2 else readByte p.2.1) s = .next t →
      ∃ es, t.trace = s.trace ++ es ∧ transferCount es = 5 * bs.length ∧
        csLevels es = (List.replicate bs.length [.low, .high]).flatten ∧
        (s.csN = .high → edgeCount s.csN (csLevels es) = 2 * bs.length))
end

