-- ==== Sys2Proof/Laws/Encoding.lean ====
section
/-! SUPPORT. What the field accessors of R54 read from a word built of fields, and the address bytes of R50. -/

namespace Sys2Proof

variable (kind : BitVec 4) (op mode : BitVec 2) (addr : ReqAddr) (data : Byte)

@[simp] theorem reqKind_reqWord : reqKind (reqWord kind op mode addr data) = kind := by
  apply BitVec.eq_of_getLsbD_eq
  intro i hi
  simp only [reqKind, reqWord, BitVec.getLsbD_extractLsb', BitVec.getLsbD_append]
  simp (disch := omega) [hi, show ¬ (44 + i < 8) by omega, show ¬ (44 + i - 8 < 32) by omega,
    show ¬ (44 + i - 8 - 32 < 2) by omega, show ¬ (44 + i - 8 - 32 - 2 < 2) by omega,
    show 44 + i - 8 - 32 - 2 - 2 = i by omega]

@[simp] theorem reqOp_reqWord : reqOp (reqWord kind op mode addr data) = op := by
  apply BitVec.eq_of_getLsbD_eq
  intro i hi
  simp only [reqOp, reqWord, BitVec.getLsbD_extractLsb', BitVec.getLsbD_append]
  simp [hi, show ¬ (42 + i < 8) by omega, show ¬ (42 + i - 8 < 32) by omega,
    show ¬ (42 + i - 8 - 32 < 2) by omega,
    show 42 + i - 8 - 32 - 2 = i by omega]

@[simp] theorem reqMode_reqWord : reqMode (reqWord kind op mode addr data) = mode := by
  apply BitVec.eq_of_getLsbD_eq
  intro i hi
  simp only [reqMode, reqWord, BitVec.getLsbD_extractLsb', BitVec.getLsbD_append]
  simp [hi, show ¬ (40 + i < 8) by omega, show ¬ (40 + i - 8 < 32) by omega,
    show 40 + i - 8 - 32 = i by omega]

@[simp] theorem reqAddr_reqWord : reqAddr (reqWord kind op mode addr data) = addr := by
  apply BitVec.eq_of_getLsbD_eq
  intro i hi
  simp only [reqAddr, reqWord, BitVec.getLsbD_extractLsb', BitVec.getLsbD_append]
  simp [hi, show ¬ (8 + i < 8) by omega, show 8 + i - 8 = i by omega]

@[simp] theorem reqData_reqWord : reqData (reqWord kind op mode addr data) = data := by
  apply BitVec.eq_of_getLsbD_eq
  intro i hi
  simp only [reqData, reqWord, BitVec.getLsbD_extractLsb', BitVec.getLsbD_append]
  simp [hi]

@[simp] theorem operationOfCode_code (o : Operation) : operationOfCode o.code = o := by
  cases o <;> decide

/-- The three address bytes of a header spell the address (R68). -/
@[simp] theorem addrOfBytes_addrBytes (a : WireAddr) :
    addrOfBytes (addrByte1 a) (addrByte2 a) (addrByte3 a) = a := by
  apply BitVec.eq_of_getLsbD_eq
  intro i hi
  simp only [addrOfBytes, addrByte1, addrByte2, addrByte3, BitVec.getLsbD_extractLsb', BitVec.getLsbD_append]
  by_cases h1 : i < 8
  · simp [h1]
  · by_cases h2 : i - 8 < 8
    · simp [h1, h2, show 8 + (i - 8) = i by omega]
    · simp [h1, h2, show 16 + (i - 8 - 8) = i by omega, show i - 8 - 8 < 8 by omega]

/-- Reading the bytes of an assembled address gives them back. -/
@[simp] theorem addrByte1_addrOfBytes (b1 b2 b3 : Byte) : addrByte1 (addrOfBytes b1 b2 b3) = b1 := by
  apply BitVec.eq_of_getLsbD_eq
  intro i hi
  simp only [addrOfBytes, addrByte1, BitVec.getLsbD_extractLsb', BitVec.getLsbD_append]
  simp [hi, show ¬ (16 + i < 8) by omega, show ¬ (16 + i - 8 < 8) by omega, show 16 + i - 8 - 8 = i by omega]

@[simp] theorem addrByte2_addrOfBytes (b1 b2 b3 : Byte) : addrByte2 (addrOfBytes b1 b2 b3) = b2 := by
  apply BitVec.eq_of_getLsbD_eq
  intro i hi
  simp only [addrOfBytes, addrByte2, BitVec.getLsbD_extractLsb', BitVec.getLsbD_append]
  simp [hi, show ¬ (8 + i < 8) by omega, show 8 + i - 8 = i by omega]

@[simp] theorem addrByte3_addrOfBytes (b1 b2 b3 : Byte) : addrByte3 (addrOfBytes b1 b2 b3) = b3 := by
  apply BitVec.eq_of_getLsbD_eq
  intro i hi
  simp only [addrOfBytes, addrByte3, BitVec.getLsbD_extractLsb', BitVec.getLsbD_append]
  simp [hi]

namespace Machine

@[simp] theorem wireAddr_toNat (a : ReqAddr) : (wireAddr a).toNat = a.toNat % 2 ^ 24 := by
  simp [wireAddr]

/-- R50: the first address byte is the request's address shifted right by 16, cut to a byte. -/
theorem addrByte1_wireAddr (a : ReqAddr) : addrByte1 (wireAddr a) = (a >>> 16).setWidth 8 := by
  apply BitVec.eq_of_getLsbD_eq
  intro i hi
  simp [addrByte1, wireAddr, hi, show 16 + i < 24 by omega]

/-- R50: the second address byte. -/
theorem addrByte2_wireAddr (a : ReqAddr) : addrByte2 (wireAddr a) = (a >>> 8).setWidth 8 := by
  apply BitVec.eq_of_getLsbD_eq
  intro i hi
  simp [addrByte2, wireAddr, hi, show 8 + i < 24 by omega]

/-- R50: the third address byte. -/
theorem addrByte3_wireAddr (a : ReqAddr) : addrByte3 (wireAddr a) = a.setWidth 8 := by
  apply BitVec.eq_of_getLsbD_eq
  intro i hi
  simp [addrByte3, wireAddr, hi, show i < 24 by omega]

/-- The mode byte selects the mode whichever Sequential byte is configured (R18, R51). -/
@[simp] theorem modeOfStatus_modeCode (cfg : Config) (m : TransferMode) :
    modeOfStatus (modeCode cfg m) = some m := by
  obtain ⟨seq, cap⟩ := cfg
  cases m <;> cases seq <;> simp [modeOfStatus, modeCode, SeqModeCode.byte]

/-- Bits 7:6 of a status byte read back as stored (R71). -/
@[simp] theorem statusReadback_mode (status free : Byte) :
    (statusReadback status free).extractLsb' 6 2 = status.extractLsb' 6 2 := by
  apply BitVec.eq_of_getLsbD_eq
  intro i hi
  simp only [statusReadback, BitVec.getLsbD_extractLsb', BitVec.getLsbD_append]
  simp [hi]

end Machine

end Sys2Proof
end

