-- ==== Sys2Proof/Laws/Memory.lean ====
section
/-! SUPPORT. The laws of device memory: read after write, writes elsewhere, the canonical form. -/

namespace Sys2Proof.Machine

open Sys2Proof

@[simp] theorem Memory.wf_nil : Memory.wf [] = true := rfl

@[simp] theorem Memory.lookup_nil (a : Nat) : Memory.lookup [] a = none := rfl

theorem Memory.above_weaken {a b : Nat} (hab : a ≤ b) : ∀ {m : List Host.Cell},
    Memory.above b m = true → Memory.above a m = true
  | [], _ => rfl
  | c :: m, h => by
    simp only [Memory.above, Bool.and_eq_true, decide_eq_true_eq] at h ⊢
    exact ⟨by omega, h.2⟩

/-- The tail of a list in canonical form is in canonical form. -/
theorem Memory.wf_of_above {a : Nat} : ∀ {m : List Host.Cell}, Memory.above a m = true → Memory.wf m = true
  | [], _ => rfl
  | _ :: _, h => by
    simp only [Memory.above, Bool.and_eq_true] at h
    exact h.2

theorem Memory.above_store {b a : Nat} {v : Byte} (hba : b < a) : ∀ {m : List Host.Cell},
    Memory.above b m = true → Memory.above b (Memory.store m a v) = true
  | [], _ => by simp [Memory.store, Memory.above, hba]
  | c :: m, h => by
    simp only [Memory.above, Bool.and_eq_true, decide_eq_true_eq] at h
    by_cases h1 : a < c.1
    · simp [Memory.store, Memory.above, h1, hba, h.2]
    · by_cases h2 : a = c.1
      · simp [Memory.store, Memory.above, h2, h.1, h.2]
      · have : c.1 < a := by omega
        simp [Memory.store, Memory.above, h1, h2, h.1, Memory.above_store this h.2]

/-- A store keeps the canonical form. -/
theorem Memory.wf_store {a : Nat} {v : Byte} : ∀ {m : List Host.Cell},
    Memory.wf m = true → Memory.wf (Memory.store m a v) = true
  | [], _ => by simp [Memory.store, Memory.wf, Memory.above]
  | c :: m, h => by
    have hm : Memory.above c.1 m = true := h
    by_cases h1 : a < c.1
    · simp [Memory.store, Memory.wf, Memory.above, h1, hm]
    · by_cases h2 : a = c.1
      · simp [Memory.store, Memory.wf, h2, hm]
      · have : c.1 < a := by omega
        simp [Memory.store, Memory.wf, h1, h2, Memory.above_store this hm]

/-- A byte stored is read back. -/
theorem Memory.lookup_store_same {a : Nat} {v : Byte} : ∀ {m : List Host.Cell},
    Memory.lookup (Memory.store m a v) a = some v
  | [] => by simp [Memory.store, Memory.lookup]
  | c :: m => by
    by_cases h1 : a < c.1
    · simp [Memory.store, Memory.lookup, h1]
    · by_cases h2 : a = c.1
      · simp [Memory.store, Memory.lookup, h2]
      · have : ¬ c.1 = a := fun h => h2 h.symm
        simp [Memory.store, Memory.lookup, h1, h2, this, Memory.lookup_store_same]

/-- A store leaves every other address alone. -/
theorem Memory.lookup_store_other {a b : Nat} {v : Byte} (hne : b ≠ a) : ∀ {m : List Host.Cell},
    Memory.lookup (Memory.store m a v) b = Memory.lookup m b
  | [] => by simp [Memory.store, Memory.lookup, Ne.symm hne]
  | c :: m => by
    by_cases h1 : a < c.1
    · simp [Memory.store, Memory.lookup, h1, Ne.symm hne]
    · by_cases h2 : a = c.1
      · subst h2
        simp [Memory.store, Memory.lookup, Ne.symm hne]
      · simp [Memory.store, Memory.lookup, h1, h2, Memory.lookup_store_other hne]

/-- A store keeps the memory inside the array when its address is. -/
theorem Memory.all_store {cap a : Nat} {v : Byte} (ha : a < cap) : ∀ {m : List Host.Cell},
    (m.all fun c => decide (c.1 < cap)) = true → ((Memory.store m a v).all fun c => decide (c.1 < cap)) = true
  | [], _ => by simp [Memory.store, ha]
  | c :: m, h => by
    simp only [List.all_cons, Bool.and_eq_true] at h
    by_cases h1 : a < c.1
    · simp only [Memory.store, h1, if_true, List.all_cons, Bool.and_eq_true]
      exact ⟨by simpa using ha, h.1, h.2⟩
    · by_cases h2 : a = c.1
      · simp only [Memory.store, h2, lt_irrefl, if_true, if_false, List.all_cons, Bool.and_eq_true]
        exact ⟨h.1, h.2⟩
      · simp only [Memory.store, h1, h2, if_false, List.all_cons, Bool.and_eq_true]
        exact ⟨h.1, Memory.all_store ha h.2⟩

end Sys2Proof.Machine
end

