-- ==== Sys2Proof/Laws/State.lean ====
section
/-! SUPPORT. One lemma per field per update of the state: what each named update does to each field. -/

namespace Sys2Proof.Machine

open Sys2Proof

@[simp] theorem record_cfg (e : Event) (s : State) : (record e s).cfg = s.cfg := rfl
@[simp] theorem record_csN (e : Event) (s : State) : (record e s).csN = s.csN := rfl
@[simp] theorem record_fault (e : Event) (s : State) : (record e s).fault = s.fault := rfl
@[simp] theorem record_trace (e : Event) (s : State) : (record e s).trace = s.trace ++ [e] := rfl
@[simp] theorem record_responses (e : Event) (s : State) : (record e s).responses = s.responses := rfl
@[simp] theorem record_dev (e : Event) (s : State) : (record e s).dev = s.dev := rfl
@[simp] theorem record_inputs (e : Event) (s : State) : (record e s).inputs = s.inputs := rfl
@[simp] theorem record_answers (e : Event) (s : State) : (record e s).answers = s.answers := rfl
@[simp] theorem record_draws (e : Event) (s : State) : (record e s).draws = s.draws := rfl

@[simp] theorem respond_cfg (err : ErrCode) (data : Byte) (s : State) : (respond err data s).cfg = s.cfg := rfl
@[simp] theorem respond_csN (err : ErrCode) (data : Byte) (s : State) : (respond err data s).csN = s.csN := rfl
@[simp] theorem respond_fault (err : ErrCode) (data : Byte) (s : State) : (respond err data s).fault = s.fault := rfl
@[simp] theorem respond_trace (err : ErrCode) (data : Byte) (s : State) : (respond err data s).trace = s.trace := rfl
@[simp] theorem respond_responses (err : ErrCode) (data : Byte) (s : State) : (respond err data s).responses = s.responses ++ [⟨err, data⟩] := rfl
@[simp] theorem respond_dev (err : ErrCode) (data : Byte) (s : State) : (respond err data s).dev = s.dev := rfl
@[simp] theorem respond_inputs (err : ErrCode) (data : Byte) (s : State) : (respond err data s).inputs = s.inputs := rfl
@[simp] theorem respond_answers (err : ErrCode) (data : Byte) (s : State) : (respond err data s).answers = s.answers := rfl
@[simp] theorem respond_draws (err : ErrCode) (data : Byte) (s : State) : (respond err data s).draws = s.draws := rfl

@[simp] theorem setCS_cfg (l : Level) (s : State) : (setCS l s).cfg = s.cfg := rfl
@[simp] theorem setCS_csN (l : Level) (s : State) : (setCS l s).csN = l := rfl
@[simp] theorem setCS_fault (l : Level) (s : State) : (setCS l s).fault = s.fault := rfl
@[simp] theorem setCS_trace (l : Level) (s : State) : (setCS l s).trace = s.trace ++ [.cs l] := rfl
@[simp] theorem setCS_responses (l : Level) (s : State) : (setCS l s).responses = s.responses := rfl
@[simp] theorem setCS_dev (l : Level) (s : State) : (setCS l s).dev = chipSelectAtDevice s.csN l s.dev := rfl
@[simp] theorem setCS_inputs (l : Level) (s : State) : (setCS l s).inputs = s.inputs := rfl
@[simp] theorem setCS_answers (l : Level) (s : State) : (setCS l s).answers = s.answers := rfl
@[simp] theorem setCS_draws (l : Level) (s : State) : (setCS l s).draws = s.draws := rfl

@[simp] theorem useAnswer_cfg (s : State) : (s.useAnswer).cfg = s.cfg := rfl
@[simp] theorem useAnswer_csN (s : State) : (s.useAnswer).csN = s.csN := rfl
@[simp] theorem useAnswer_fault (s : State) : (s.useAnswer).fault = s.fault := rfl
@[simp] theorem useAnswer_trace (s : State) : (s.useAnswer).trace = s.trace := rfl
@[simp] theorem useAnswer_responses (s : State) : (s.useAnswer).responses = s.responses := rfl
@[simp] theorem useAnswer_dev (s : State) : (s.useAnswer).dev = s.dev := rfl
@[simp] theorem useAnswer_inputs (s : State) : (s.useAnswer).inputs = s.inputs := rfl
@[simp] theorem useAnswer_answers (s : State) : (s.useAnswer).answers = s.answers.tail := rfl
@[simp] theorem useAnswer_draws (s : State) : (s.useAnswer).draws = s.draws := rfl

@[simp] theorem framerResetValues_cfg (s : State) : (framerResetValues s).cfg = s.cfg := rfl
@[simp] theorem framerResetValues_csN (s : State) : (framerResetValues s).csN = .high := rfl
@[simp] theorem framerResetValues_fault (s : State) : (framerResetValues s).fault = .none := rfl
@[simp] theorem framerResetValues_trace (s : State) : (framerResetValues s).trace = [] := rfl
@[simp] theorem framerResetValues_responses (s : State) : (framerResetValues s).responses = s.responses := rfl
@[simp] theorem framerResetValues_dev (s : State) : (framerResetValues s).dev = s.dev := rfl
@[simp] theorem framerResetValues_inputs (s : State) : (framerResetValues s).inputs = s.inputs := rfl
@[simp] theorem framerResetValues_answers (s : State) : (framerResetValues s).answers = s.answers := rfl
@[simp] theorem framerResetValues_draws (s : State) : (framerResetValues s).draws = s.draws := rfl

@[simp] theorem takeTransportError_cfg (tx : Byte) (s : State) : (takeTransportError tx s).cfg = s.cfg := rfl
@[simp] theorem takeTransportError_csN (tx : Byte) (s : State) : (takeTransportError tx s).csN = s.csN := rfl
@[simp] theorem takeTransportError_fault (tx : Byte) (s : State) : (takeTransportError tx s).fault = .transportError := rfl
@[simp] theorem takeTransportError_trace (tx : Byte) (s : State) : (takeTransportError tx s).trace = s.trace ++ [.tf tx] := rfl
@[simp] theorem takeTransportError_responses (tx : Byte) (s : State) : (takeTransportError tx s).responses = s.responses ++ [⟨.transportError, 0⟩] := rfl
@[simp] theorem takeTransportError_dev (tx : Byte) (s : State) : (takeTransportError tx s).dev = s.dev.lose := rfl
@[simp] theorem takeTransportError_inputs (tx : Byte) (s : State) : (takeTransportError tx s).inputs = s.inputs := rfl
@[simp] theorem takeTransportError_answers (tx : Byte) (s : State) : (takeTransportError tx s).answers = s.answers := rfl
@[simp] theorem takeTransportError_draws (tx : Byte) (s : State) : (takeTransportError tx s).draws = s.draws := rfl

@[simp] theorem resetDuringTransfer_cfg (s : State) : (resetDuringTransfer s).cfg = s.cfg := rfl
@[simp] theorem resetDuringTransfer_csN (s : State) : (resetDuringTransfer s).csN = .high := rfl
@[simp] theorem resetDuringTransfer_fault (s : State) : (resetDuringTransfer s).fault = .none := rfl
@[simp] theorem resetDuringTransfer_trace (s : State) : (resetDuringTransfer s).trace = [] := rfl
@[simp] theorem resetDuringTransfer_responses (s : State) : (resetDuringTransfer s).responses = s.responses := rfl
@[simp] theorem resetDuringTransfer_dev (s : State) : (resetDuringTransfer s).dev = s.dev.cutShort s.cfg.deviceCapacity (Config.freeRx s.draws) := rfl
@[simp] theorem resetDuringTransfer_inputs (s : State) : (resetDuringTransfer s).inputs = s.inputs := rfl
@[simp] theorem resetDuringTransfer_answers (s : State) : (resetDuringTransfer s).answers = s.answers := rfl
@[simp] theorem resetDuringTransfer_draws (s : State) : (resetDuringTransfer s).draws = s.draws + 1 := rfl

@[simp] theorem framerReset_cfg (s : State) : (framerReset s).cfg = s.cfg := rfl
@[simp] theorem framerReset_csN (s : State) : (framerReset s).csN = .high := rfl
@[simp] theorem framerReset_fault (s : State) : (framerReset s).fault = .none := rfl
@[simp] theorem framerReset_trace (s : State) : (framerReset s).trace = [] := rfl
@[simp] theorem framerReset_responses (s : State) : (framerReset s).responses = s.responses := rfl
@[simp] theorem framerReset_dev (s : State) : (framerReset s).dev = s.dev.framerReset := rfl
@[simp] theorem framerReset_inputs (s : State) : (framerReset s).inputs = s.inputs := rfl
@[simp] theorem framerReset_answers (s : State) : (framerReset s).answers = s.answers := rfl
@[simp] theorem framerReset_draws (s : State) : (framerReset s).draws = s.draws := rfl

@[simp] theorem devicePowerCycle_cfg (s : State) : (devicePowerCycle s).cfg = s.cfg := rfl
@[simp] theorem devicePowerCycle_csN (s : State) : (devicePowerCycle s).csN = s.csN := rfl
@[simp] theorem devicePowerCycle_fault (s : State) : (devicePowerCycle s).fault = s.fault := rfl
@[simp] theorem devicePowerCycle_trace (s : State) : (devicePowerCycle s).trace = s.trace := rfl
@[simp] theorem devicePowerCycle_responses (s : State) : (devicePowerCycle s).responses = s.responses := rfl
@[simp] theorem devicePowerCycle_dev (s : State) : (devicePowerCycle s).dev = s.dev.powerCycle := rfl
@[simp] theorem devicePowerCycle_inputs (s : State) : (devicePowerCycle s).inputs = s.inputs := rfl
@[simp] theorem devicePowerCycle_answers (s : State) : (devicePowerCycle s).answers = s.answers := rfl
@[simp] theorem devicePowerCycle_draws (s : State) : (devicePowerCycle s).draws = s.draws := rfl

@[simp] theorem pushInput_cfg (x : Input) (s : State) : (pushInput x s).cfg = s.cfg := rfl
@[simp] theorem pushInput_csN (x : Input) (s : State) : (pushInput x s).csN = s.csN := rfl
@[simp] theorem pushInput_fault (x : Input) (s : State) : (pushInput x s).fault = s.fault := rfl
@[simp] theorem pushInput_trace (x : Input) (s : State) : (pushInput x s).trace = s.trace := rfl
@[simp] theorem pushInput_responses (x : Input) (s : State) : (pushInput x s).responses = s.responses := rfl
@[simp] theorem pushInput_dev (x : Input) (s : State) : (pushInput x s).dev = s.dev := rfl
@[simp] theorem pushInput_inputs (x : Input) (s : State) : (pushInput x s).inputs = x :: s.inputs := rfl
@[simp] theorem pushInput_answers (x : Input) (s : State) : (pushInput x s).answers = s.answers := rfl
@[simp] theorem pushInput_draws (x : Input) (s : State) : (pushInput x s).draws = s.draws := rfl

@[simp] theorem Device.havoc_status (d : Device) : (d.havoc).status = Config.freeStatus (d.epoch + 1) := rfl
@[simp] theorem Device.havoc_statusKnown (d : Device) : (d.havoc).statusKnown = false := rfl
@[simp] theorem Device.havoc_ctr (d : Device) : (d.havoc).ctr = none := rfl
@[simp] theorem Device.havoc_mem (d : Device) : (d.havoc).mem = [] := rfl
@[simp] theorem Device.havoc_epoch (d : Device) : (d.havoc).epoch = d.epoch + 1 := rfl
@[simp] theorem Device.havoc_phase (d : Device) : (d.havoc).phase = .idle := rfl
@[simp] theorem Device.havoc_lost (d : Device) : (d.havoc).lost = d.lost := rfl

@[simp] theorem Device.lose_status (d : Device) : (d.lose).status = Config.freeStatus (d.epoch + 1) := rfl
@[simp] theorem Device.lose_statusKnown (d : Device) : (d.lose).statusKnown = false := rfl
@[simp] theorem Device.lose_ctr (d : Device) : (d.lose).ctr = Config.freeLostCtr (d.epoch + 1) := rfl
@[simp] theorem Device.lose_mem (d : Device) : (d.lose).mem = [] := rfl
@[simp] theorem Device.lose_epoch (d : Device) : (d.lose).epoch = d.epoch + 1 := rfl
@[simp] theorem Device.lose_phase (d : Device) : (d.lose).phase = .idle := rfl
@[simp] theorem Device.lose_lost (d : Device) : (d.lose).lost = true := rfl

@[simp] theorem Device.powerCycle_status (d : Device) : (d.powerCycle).status = Config.freeStatus (d.epoch + 1) := rfl
@[simp] theorem Device.powerCycle_statusKnown (d : Device) : (d.powerCycle).statusKnown = false := rfl
@[simp] theorem Device.powerCycle_ctr (d : Device) : (d.powerCycle).ctr = none := rfl
@[simp] theorem Device.powerCycle_mem (d : Device) : (d.powerCycle).mem = [] := rfl
@[simp] theorem Device.powerCycle_epoch (d : Device) : (d.powerCycle).epoch = d.epoch + 1 := rfl
@[simp] theorem Device.powerCycle_phase (d : Device) : (d.powerCycle).phase = .idle := rfl
@[simp] theorem Device.powerCycle_lost (d : Device) : (d.powerCycle).lost = d.lost := rfl

@[simp] theorem Device.endBurst_status (d : Device) : (d.endBurst).status = d.status := rfl
@[simp] theorem Device.endBurst_statusKnown (d : Device) : (d.endBurst).statusKnown = d.statusKnown := rfl
@[simp] theorem Device.endBurst_ctr (d : Device) : (d.endBurst).ctr = none := rfl
@[simp] theorem Device.endBurst_mem (d : Device) : (d.endBurst).mem = d.mem := rfl
@[simp] theorem Device.endBurst_epoch (d : Device) : (d.endBurst).epoch = d.epoch := rfl
@[simp] theorem Device.endBurst_phase (d : Device) : (d.endBurst).phase = .idle := rfl
@[simp] theorem Device.endBurst_lost (d : Device) : (d.endBurst).lost = d.lost := rfl

@[simp] theorem Device.cutUnspecified_status (d : Device) : (d.cutUnspecified).status = Config.freeStatus (d.epoch + 1) := rfl
@[simp] theorem Device.cutUnspecified_statusKnown (d : Device) : (d.cutUnspecified).statusKnown = false := rfl
@[simp] theorem Device.cutUnspecified_ctr (d : Device) : (d.cutUnspecified).ctr = none := rfl
@[simp] theorem Device.cutUnspecified_mem (d : Device) : (d.cutUnspecified).mem = [] := rfl
@[simp] theorem Device.cutUnspecified_epoch (d : Device) : (d.cutUnspecified).epoch = d.epoch + 1 := rfl
@[simp] theorem Device.cutUnspecified_phase (d : Device) : (d.cutUnspecified).phase = .idle := rfl
@[simp] theorem Device.cutUnspecified_lost (d : Device) : (d.cutUnspecified).lost = false := rfl

@[simp] theorem Device.advance_status (freeCtr : Nat) (d : Device) (kind : BurstKind) (a : Nat) : (d.advance freeCtr kind a).status = d.status := rfl
@[simp] theorem Device.advance_statusKnown (freeCtr : Nat) (d : Device) (kind : BurstKind) (a : Nat) : (d.advance freeCtr kind a).statusKnown = d.statusKnown := rfl
@[simp] theorem Device.advance_ctr (freeCtr : Nat) (d : Device) (kind : BurstKind) (a : Nat) : (d.advance freeCtr kind a).ctr = some (if d.mode = some .sequential then a + 1 else freeCtr) := rfl
@[simp] theorem Device.advance_mem (freeCtr : Nat) (d : Device) (kind : BurstKind) (a : Nat) : (d.advance freeCtr kind a).mem = d.mem := rfl
@[simp] theorem Device.advance_epoch (freeCtr : Nat) (d : Device) (kind : BurstKind) (a : Nat) : (d.advance freeCtr kind a).epoch = d.epoch := rfl
@[simp] theorem Device.advance_phase (freeCtr : Nat) (d : Device) (kind : BurstKind) (a : Nat) : (d.advance freeCtr kind a).phase = .data kind false := rfl
@[simp] theorem Device.advance_lost (freeCtr : Nat) (d : Device) (kind : BurstKind) (a : Nat) : (d.advance freeCtr kind a).lost = d.lost := rfl

end Sys2Proof.Machine
end

