-- ==== Sys2Proof/Laws/Device.lean ====
section
/-! SUPPORT. What a chip-select edge and a byte do to the device, one lemma per case. -/

namespace Sys2Proof.Machine

open Sys2Proof

/-! ### Reading a byte -/

/-- The byte just stored is the byte read. -/
theorem Device.byteAt_store_same {d e : Device} {a : Nat} {v : Byte} (hm : e.mem = Memory.store d.mem a v) :
    e.byteAt a = v := by
  simp [Device.byteAt, hm, Memory.lookup_store_same]

/-- A store leaves every other byte as it reads. -/
theorem Device.byteAt_store_other {d e : Device} {a b : Nat} {v : Byte} (hm : e.mem = Memory.store d.mem a v)
    (he : e.epoch = d.epoch) (hne : b ≠ a) : e.byteAt b = d.byteAt b := by
  simp [Device.byteAt, hm, he, Memory.lookup_store_other hne]

/-- A byte's content depends on the memory and the epoch only. -/
theorem Device.byteAt_congr {d e : Device} (hm : e.mem = d.mem) (he : e.epoch = d.epoch) (a : Nat) :
    e.byteAt a = d.byteAt a := by
  simp [Device.byteAt, hm, he]

/-- The mode depends on the status register and on whether it is known. -/
theorem Device.mode_congr {d e : Device} (h1 : e.status = d.status) (h2 : e.statusKnown = d.statusKnown) :
    e.mode = d.mode := by
  simp [Device.mode, h1, h2]

/-! ### An unspecified device stays so -/

theorem Device.select_of_lost {d : Device} (h : d.lost = true) : d.select = d.lose := by simp [Device.select, h]

theorem Device.deselect_of_lost {d : Device} (h : d.lost = true) : d.deselect = d.lose.endBurst := by
  simp [Device.deselect, h]

theorem Device.exchange_of_lost {cap freeCtr : Nat} {free tx : Byte} {d : Device} (h : d.lost = true) :
    d.exchange cap free freeCtr tx = (free, d.lose) := by simp [Device.exchange, h]

/-! ### A specified device, case by case -/

theorem Device.select_of_specified {d : Device} (h : d.lost = false) : d.select = { d with phase := .opened } := by
  simp [Device.select, h]

theorem Device.deselect_idle {d : Device} (h : d.lost = false) (hp : d.phase = .idle) : d.deselect = d := by
  simp [Device.deselect, h, hp]

theorem Device.deselect_data {d : Device} {k : BurstKind} {b : Bool} (h : d.lost = false)
    (hp : d.phase = .data k b) : d.deselect = { d with phase := .idle, ctr := none } := by
  simp [Device.deselect, Device.endBurst, h, hp]

theorem Device.deselect_spent {d : Device} (h : d.lost = false) (hp : d.phase = .spent) :
    d.deselect = { d with phase := .idle, ctr := none } := by
  simp [Device.deselect, Device.endBurst, h, hp]

section
variable {cap freeCtr : Nat} {free tx : Byte} {d : Device}

theorem Device.exchange_idle (h : d.lost = false) (hp : d.phase = .idle) :
    d.exchange cap free freeCtr tx = (free, d.lose) := by simp [Device.exchange, h, hp]

theorem Device.exchange_opened (h : d.lost = false) (hp : d.phase = .opened) :
    d.exchange cap free freeCtr tx = (free, d.takeOpcode tx) := by simp [Device.exchange, h, hp]

theorem Device.exchange_header {k : BurstKind} {got : List Byte} (h : d.lost = false) (hp : d.phase = .header k got) :
    d.exchange cap free freeCtr tx = (free, d.takeAddressByte cap k got tx) := by simp [Device.exchange, h, hp]

theorem Device.exchange_statusWrite (h : d.lost = false) (hp : d.phase = .statusWrite) :
    d.exchange cap free freeCtr tx = (free, { d with status := tx, statusKnown := true, phase := .spent }) := by
  simp [Device.exchange, h, hp]

theorem Device.exchange_statusRead (h : d.lost = false) (hp : d.phase = .statusRead) :
    d.exchange cap free freeCtr tx = (statusReadback d.status free, { d with phase := .spent }) := by
  simp [Device.exchange, h, hp]

theorem Device.exchange_data {k : BurstKind} {b : Bool} (h : d.lost = false) (hp : d.phase = .data k b) :
    d.exchange cap free freeCtr tx = d.dataByte cap free freeCtr tx k := by simp [Device.exchange, h, hp]

/-- A data byte with no specified address leaves the device unspecified (R29 to R31). -/
theorem Device.dataByte_undefined {k : BurstKind} (h : d.dataAddress cap = none) :
    d.dataByte cap free freeCtr tx k = (free, d.lose) := by simp [Device.dataByte, h]

/-- A data byte of a Read burst (R27). -/
theorem Device.dataByte_read {a : Nat} (h : d.dataAddress cap = some a) :
    d.dataByte cap free freeCtr tx .read = (d.byteAt a, d.advance freeCtr .read a) := by simp [Device.dataByte, h]

/-- A data byte of a Write burst (R27). -/
theorem Device.dataByte_write {a : Nat} (h : d.dataAddress cap = some a) :
    d.dataByte cap free freeCtr tx .write = (free, { d.advance freeCtr .write a with mem := Memory.store d.mem a tx }) := by
  simp [Device.dataByte, h]

/-- Where a data byte goes: the first in every mode, a later one in Sequential mode, below the capacity. -/
theorem Device.dataAddress_eq_some {k : BurstKind} {b : Bool} {a : Nat} (hp : d.phase = .data k b)
    (hc : d.ctr = some a) (hm : b = true ∨ d.mode = some .sequential) (ha : a < cap) :
    d.dataAddress cap = some a := by
  rcases hm with h | h <;> simp [Device.dataAddress, hp, hc, h, ha]

/-- The address of a data byte is the counter's, below the capacity. -/
theorem Device.dataAddress_spec {a : Nat} (h : d.dataAddress cap = some a) :
    d.ctr = some a ∧ a < cap ∧ ∃ k b, d.phase = .data k b ∧ (b = true ∨ d.mode = some .sequential) := by
  unfold Device.dataAddress at h
  split at h
  · rename_i k b a' hp hc
    split at h
    · rename_i hcond
      simp only [Bool.and_eq_true, Bool.or_eq_true, beq_iff_eq, decide_eq_true_eq] at hcond
      cases h
      exact ⟨hc, hcond.2, k, b, hp, hcond.1⟩
    · cases h
  · cases h

/-- The header's last byte loads the counter when a mode is selected and the address is in the array (R27). -/
theorem Device.loadCounter_ok {k : BurstKind} {a : WireAddr} (hm : d.mode.isSome = true) (ha : a.toNat < cap) :
    d.loadCounter cap k a = { d with phase := .data k true, ctr := some a.toNat } := by
  simp [Device.loadCounter, hm, ha]

theorem Device.loadCounter_undefined {k : BurstKind} {a : WireAddr} (h : ¬ (d.mode.isSome = true ∧ a.toNat < cap)) :
    d.loadCounter cap k a = d.lose := by
  simp only [Device.loadCounter, Bool.and_eq_true, decide_eq_true_eq, h, if_false]

end

@[simp] theorem takeOpcode_read (d : Device) : d.takeOpcode opcRead = { d with phase := .header .read [] } := by
  simp [Device.takeOpcode]

@[simp] theorem takeOpcode_write (d : Device) : d.takeOpcode opcWrite = { d with phase := .header .write [] } := by
  simp [Device.takeOpcode, opcRead, opcWrite]

@[simp] theorem takeOpcode_wrsr (d : Device) : d.takeOpcode opcWrsr = { d with phase := .statusWrite } := by
  simp [Device.takeOpcode, opcRead, opcWrite, opcWrsr]

@[simp] theorem takeOpcode_rdsr (d : Device) : d.takeOpcode opcRdsr = { d with phase := .statusRead } := by
  simp [Device.takeOpcode, opcRead, opcWrite, opcWrsr, opcRdsr]

@[simp] theorem takeOpcode_hsread (d : Device) : d.takeOpcode opcHsread = d.lose := by
  simp [Device.takeOpcode, opcRead, opcWrite, opcWrsr, opcRdsr, opcHsread]

@[simp] theorem takeOpcode_rstio (d : Device) : d.takeOpcode opcRstio = d.lose := by
  simp [Device.takeOpcode, opcRead, opcWrite, opcWrsr, opcRdsr, opcRstio]

/-! ### Memory through a byte and an edge -/

/-- The memory part of the invariant: canonical form, inside the array (R24). -/
def Device.memOk (cap : Nat) (d : Device) : Prop :=
  Memory.wf d.mem = true ∧ (d.mem.all fun c => decide (c.1 < cap)) = true

theorem Device.memOk_lose (cap : Nat) (d : Device) : d.lose.memOk cap := by simp [Device.memOk]

theorem Device.memOk_congr {cap : Nat} {d e : Device} (h : e.mem = d.mem) (hd : d.memOk cap) : e.memOk cap := by
  simpa [Device.memOk, h] using hd

/-- A byte keeps the memory in its form and inside the array. -/
theorem Device.memOk_exchange {cap freeCtr : Nat} {free tx : Byte} {d : Device} (h : d.memOk cap) :
    (d.exchange cap free freeCtr tx).2.memOk cap := by
  have key : ∀ k, (d.dataByte cap free freeCtr tx k).2.memOk cap := by
    intro k
    unfold Device.dataByte
    split
    · exact d.memOk_lose cap
    · rename_i a ha
      cases k
      · exact h
      · exact ⟨Memory.wf_store h.1, Memory.all_store (Device.dataAddress_spec ha).2.1 h.2⟩
  unfold Device.exchange
  split
  · exact d.memOk_lose cap
  · split
    · exact d.memOk_lose cap
    · unfold Device.takeOpcode
      repeat' split
      all_goals first | exact h | exact d.memOk_lose cap
    · rename_i k got _
      unfold Device.takeAddressByte
      split
      · unfold Device.loadCounter
        split
        · exact h
        · exact d.memOk_lose cap
      · exact h
    · exact key _
    · exact h
    · exact h
    · exact d.memOk_lose cap

theorem Device.memOk_select {cap : Nat} {d : Device} (h : d.memOk cap) : d.select.memOk cap := by
  unfold Device.select
  split
  · exact d.memOk_lose cap
  · exact h

theorem Device.memOk_deselect {cap : Nat} {d : Device} (h : d.memOk cap) : d.deselect.memOk cap := by
  unfold Device.deselect
  split
  · exact d.memOk_lose cap
  · split <;> first | exact h | exact d.memOk_lose cap

/-- A device once unspecified stays so under a byte. -/
theorem Device.lost_exchange {cap freeCtr : Nat} {free tx : Byte} {d : Device} (h : d.lost = true) :
    (d.exchange cap free freeCtr tx).2.lost = true := by rw [Device.exchange_of_lost h]; rfl

theorem Device.lost_select {d : Device} (h : d.lost = true) : d.select.lost = true := by
  rw [Device.select_of_lost h]; rfl

theorem Device.lost_deselect {d : Device} (h : d.lost = true) : d.deselect.lost = true := by
  rw [Device.deselect_of_lost h]; rfl

/-- What a byte does to the mark: the device becomes unspecified by `lose`, or keeps the mark. -/
theorem Device.exchange_lose_or_keep {cap freeCtr : Nat} {free tx : Byte} (d : Device) :
    (d.exchange cap free freeCtr tx).2 = d.lose ∨ (d.exchange cap free freeCtr tx).2.lost = d.lost := by
  have key : ∀ k, (d.dataByte cap free freeCtr tx k).2 = d.lose ∨ (d.dataByte cap free freeCtr tx k).2.lost = d.lost := by
    intro k
    unfold Device.dataByte
    split
    · exact .inl rfl
    · cases k <;> exact .inr rfl
  unfold Device.exchange
  split
  · exact .inl rfl
  · split
    · exact .inl rfl
    · unfold Device.takeOpcode
      repeat' split
      all_goals first | exact .inr rfl | exact .inl rfl
    · unfold Device.takeAddressByte
      split
      · unfold Device.loadCounter
        split
        · exact .inr rfl
        · exact .inl rfl
      · exact .inr rfl
    · exact key _
    · exact .inr rfl
    · exact .inr rfl
    · exact .inl rfl

/-- A device unspecified after a byte is exactly `lose`. -/
theorem Device.exchange_eq_lose {cap freeCtr : Nat} {free tx : Byte} {d : Device}
    (h : (d.exchange cap free freeCtr tx).2.lost = true) : (d.exchange cap free freeCtr tx).2 = d.lose := by
  rcases Device.exchange_lose_or_keep (cap := cap) (free := free) (freeCtr := freeCtr) (tx := tx) d with h' | h'
  · exact h'
  · rw [h'] at h
    rw [Device.exchange_of_lost h]

/-- A device unspecified after chip-select rises is exactly `lose` with the burst ended (R32). -/
theorem Device.deselect_eq_lose {d : Device} (h : d.deselect.lost = true) : d.deselect = d.lose.endBurst := by
  cases hl : d.lost
  · unfold Device.deselect at h ⊢
    rw [hl] at h ⊢
    cases hp : d.phase <;> simp_all
  · exact Device.deselect_of_lost hl

/-! ### A burst cut short -/

/-- Where a store goes: to the data address of a specified Write burst. -/
theorem Device.storeAddress_spec {cap a : Nat} {d : Device} (h : d.storeAddress cap = some a) :
    d.lost = false ∧ d.dataAddress cap = some a ∧ ∃ b, d.phase = .data .write b := by
  unfold Device.storeAddress at h
  split at h
  · rename_i b hp
    split at h
    · cases h
    · rename_i hl
      exact ⟨by simpa using hl, h, b, hp⟩
  · cases h

theorem Device.storeAddress_write {cap : Nat} {d : Device} {b : Bool} (hl : d.lost = false)
    (hp : d.phase = .data .write b) : d.storeAddress cap = d.dataAddress cap := by simp [Device.storeAddress, hp, hl]

theorem Device.storeAddress_read {cap : Nat} {d : Device} {b : Bool} (hp : d.phase = .data .read b) :
    d.storeAddress cap = none := by simp [Device.storeAddress, hp]

/-- Cut during a data byte of a Write burst. -/
theorem Device.cutShort_write {cap a : Nat} {free : Byte} {d : Device} (h : d.storeAddress cap = some a) :
    d.cutShort cap free = { d with mem := Memory.store d.mem a free, phase := .idle, ctr := none } := by
  obtain ⟨hl, ha, b, hp⟩ := Device.storeAddress_spec h
  simp [Device.cutShort, Device.endBurst, hl, hp, ha]

/-- Cut during a data byte of a Read burst. -/
theorem Device.cutShort_read {cap a : Nat} {free : Byte} {d : Device} (hs : d.storeAddress cap = none)
    (ha : d.dataAddress cap = some a) (hl : d.lost = false) :
    d.cutShort cap free = { d with phase := .idle, ctr := none } := by
  obtain ⟨_, _, k, b, hp, _⟩ := Device.dataAddress_spec ha
  cases k
  · simp [Device.cutShort, Device.endBurst, hl, hp, ha]
  · rw [Device.storeAddress_write hl hp, ha] at hs
    cases hs

/-- Cut during the data byte of a status write: the status register alone is open. -/
theorem Device.cutShort_statusWrite {cap : Nat} {free : Byte} {d : Device} (hl : d.lost = false)
    (hp : d.phase = .statusWrite) :
    d.cutShort cap free = { d with status := free, statusKnown := false, phase := .idle, ctr := none } := by
  simp [Device.cutShort, Device.endBurst, hl, hp]

/-- Cut during the data byte of a status read: nothing changes. -/
theorem Device.cutShort_statusRead {cap : Nat} {free : Byte} {d : Device} (hl : d.lost = false)
    (hp : d.phase = .statusRead) : d.cutShort cap free = { d with phase := .idle, ctr := none } := by
  simp [Device.cutShort, Device.endBurst, hl, hp]

/-- After a cut no burst is open, the device is specified again, and its memory is in its form. -/
theorem Device.cutShort_spec {cap : Nat} {free : Byte} {d : Device} :
    (d.cutShort cap free).phase = .idle ∧ (d.cutShort cap free).ctr = none ∧ (d.cutShort cap free).lost = false ∧
    (d.memOk cap → (d.cutShort cap free).memOk cap) := by
  unfold Device.cutShort
  split
  · exact ⟨rfl, rfl, rfl, fun _ => d.memOk_lose cap⟩
  · rename_i hl
    have hl : d.lost = false := by simpa using hl
    split
    · split
      · rename_i ha _
        exact ⟨rfl, rfl, hl, fun h => ⟨Memory.wf_store h.1, Memory.all_store (Device.dataAddress_spec ha).2.1 h.2⟩⟩
      · exact ⟨rfl, rfl, hl, fun h => h⟩
      · exact ⟨rfl, rfl, rfl, fun _ => d.memOk_lose cap⟩
    all_goals first
      | exact ⟨rfl, rfl, hl, fun h => h⟩
      | exact ⟨rfl, rfl, rfl, fun _ => d.memOk_lose cap⟩

end Sys2Proof.Machine
end

