-- ==== Sys2Proof/Laws/Ops.lean ====
section
/-! SUPPORT. What each shared operation of Ops.lean can do, said once: a transfer, a run of transfers, the frames. -/

namespace Sys2Proof.Machine

open Sys2Proof

/-! ### A transfer that completes -/

/-- The byte a completing transfer receives. -/
def rxOf (tx : Byte) (s : State) : Byte :=
  (s.dev.exchange s.cfg.deviceCapacity (Config.freeRx s.draws) (Config.freeCtr s.draws) tx).1

/-- The device after a completing transfer. -/
def devAfter (tx : Byte) (s : State) : Device :=
  (s.dev.exchange s.cfg.deviceCapacity (Config.freeRx s.draws) (Config.freeCtr s.draws) tx).2

/-- The state after a completing transfer. -/
def afterTransfer (tx : Byte) (s : State) : State :=
  { s with trace := s.trace ++ [.t tx (rxOf tx s)], dev := devAfter tx s, draws := s.draws + 1,
           answers := s.answers.tail }

section
variable (tx : Byte) (s : State)
@[simp] theorem afterTransfer_cfg : (afterTransfer tx s).cfg = s.cfg := rfl
@[simp] theorem afterTransfer_csN : (afterTransfer tx s).csN = s.csN := rfl
@[simp] theorem afterTransfer_fault : (afterTransfer tx s).fault = s.fault := rfl
@[simp] theorem afterTransfer_trace : (afterTransfer tx s).trace = s.trace ++ [.t tx (rxOf tx s)] := rfl
@[simp] theorem afterTransfer_responses : (afterTransfer tx s).responses = s.responses := rfl
@[simp] theorem afterTransfer_dev : (afterTransfer tx s).dev = devAfter tx s := rfl
@[simp] theorem afterTransfer_inputs : (afterTransfer tx s).inputs = s.inputs := rfl
@[simp] theorem afterTransfer_answers : (afterTransfer tx s).answers = s.answers.tail := rfl
@[simp] theorem afterTransfer_draws : (afterTransfer tx s).draws = s.draws + 1 := rfl
end

theorem transfer_of_ok {tx : Byte} {s : State} (h : s.nextAnswer = .ok) :
    transfer tx s = .got (rxOf tx s) (afterTransfer tx s) := by
  simp only [transfer, h]
  rfl

theorem transfer_of_busFault {tx : Byte} {s : State} (h : s.nextAnswer = .busFault) :
    transfer tx s = .ended (takeTransportError tx s.useAnswer) := by simp only [transfer, h]

theorem transfer_of_reset {tx : Byte} {s : State} (h : s.nextAnswer = .reset) :
    transfer tx s = .ended (resetDuringTransfer s.useAnswer) := by simp only [transfer, h]

theorem transfer_of_stall {tx : Byte} {s : State} (h : s.nextAnswer = .stall) : transfer tx s = .stalled := by
  simp only [transfer, h]

/-- Everything a transfer can do (R8, R76, R88, R96). -/
theorem transfer_cases (tx : Byte) (s : State) :
    (s.nextAnswer = .ok ∧ transfer tx s = .got (rxOf tx s) (afterTransfer tx s)) ∨
    (s.nextAnswer = .busFault ∧ transfer tx s = .ended (takeTransportError tx s.useAnswer)) ∨
    (s.nextAnswer = .reset ∧ transfer tx s = .ended (resetDuringTransfer s.useAnswer)) ∨
    (s.nextAnswer = .stall ∧ transfer tx s = .stalled) := by
  cases h : s.nextAnswer
  · exact .inl ⟨rfl, transfer_of_ok h⟩
  · exact .inr (.inl ⟨rfl, transfer_of_busFault h⟩)
  · exact .inr (.inr (.inr ⟨rfl, transfer_of_stall h⟩))
  · exact .inr (.inr (.inl ⟨rfl, transfer_of_reset h⟩))

/-! ### Runs of transfers -/

@[simp] theorem andThen_got (rx : Byte) (s : State) (f : Byte → State → XferResult) :
    (XferResult.got rx s).andThen f = f rx s := rfl
@[simp] theorem andThen_ended (s : State) (f : Byte → State → XferResult) :
    (XferResult.ended s).andThen f = .ended s := rfl
@[simp] theorem andThen_stalled (f : Byte → State → XferResult) : XferResult.stalled.andThen f = .stalled := rfl
@[simp] theorem transferAll_nil (last : Byte) (s : State) : transferAll last [] s = .got last s := rfl
theorem transferAll_cons (last b : Byte) (bs : List Byte) (s : State) :
    transferAll last (b :: bs) s = (transfer b s).andThen fun rx s' => transferAll rx bs s' := rfl

theorem transferAll_cons_ok {last b : Byte} {bs : List Byte} {s : State} (h : s.nextAnswer = .ok) :
    transferAll last (b :: bs) s = transferAll (rxOf b s) bs (afterTransfer b s) := by
  rw [transferAll_cons, transfer_of_ok h, andThen_got]

/-- The state after transfers that complete, one a byte. -/
def runBytes : List Byte → State → State
  | [], s => s
  | b :: bs, s => runBytes bs (afterTransfer b s)

@[simp] theorem runBytes_nil (s : State) : runBytes [] s = s := rfl
theorem runBytes_cons (b : Byte) (bs : List Byte) (s : State) :
    runBytes (b :: bs) s = runBytes bs (afterTransfer b s) := rfl

/-- A property every completing transfer keeps holds after a run of them. -/
theorem runBytes_induct {P : State → Prop} (h : ∀ tx u, P u → P (afterTransfer tx u)) :
    ∀ (bs : List Byte) (s : State), P s → P (runBytes bs s)
  | [], _, hs => hs
  | b :: bs, s, hs => runBytes_induct h bs (afterTransfer b s) (h b s hs)

/-- What a run of completing transfers leaves alone, and what it appends to the trace. -/
theorem runBytes_spec : ∀ (bs : List Byte) (s : State),
    (runBytes bs s).cfg = s.cfg ∧ (runBytes bs s).csN = s.csN ∧ (runBytes bs s).fault = s.fault ∧
    (runBytes bs s).responses = s.responses ∧ (runBytes bs s).inputs = s.inputs ∧
    (runBytes bs s).answers = s.answers.drop bs.length ∧ (runBytes bs s).draws = s.draws + bs.length ∧
    ∃ rxs : List Byte, rxs.length = bs.length ∧
      (runBytes bs s).trace = s.trace ++ List.zipWith Event.t bs rxs
  | [], s => ⟨rfl, rfl, rfl, rfl, rfl, rfl, rfl, [], rfl, by simp⟩
  | b :: bs, s => by
    obtain ⟨h1, h2, h3, h4, h5, h6, h7, rxs, h8, h9⟩ := runBytes_spec bs (afterTransfer b s)
    refine ⟨h1, h2, h3, h4, h5, ?_, ?_, rxOf b s :: rxs, by simp [h8], ?_⟩
    · rw [runBytes_cons, h6, afterTransfer_answers, List.drop_tail, List.length_cons]
    · rw [runBytes_cons, h7, afterTransfer_draws, List.length_cons]
      omega
    · rw [runBytes_cons, h9, afterTransfer_trace]
      simp

/-- A run of transfers that goes through is a run of completing ones. -/
theorem transferAll_got : ∀ {bs : List Byte} {last rx : Byte} {s t : State},
    transferAll last bs s = .got rx t → t = runBytes bs s
  | [], _, _, _, _, h => by
    cases h
    rfl
  | b :: bs, last, rx, s, t, h => by
    rw [transferAll_cons] at h
    rcases transfer_cases b s with ⟨_, ht⟩ | ⟨_, ht⟩ | ⟨_, ht⟩ | ⟨_, ht⟩ <;> rw [ht] at h
    · rw [andThen_got] at h
      rw [runBytes_cons]
      exact transferAll_got h
    · cases h
    · cases h
    · cases h

/-- A run of transfers that ends the request ends at one of its bytes, by a bus fault or a reset, after the
bytes before it have gone through. -/
theorem transferAll_ended : ∀ {bs : List Byte} {last : Byte} {s t : State},
    transferAll last bs s = .ended t → ∃ pre b post, bs = pre ++ b :: post ∧
      (((runBytes pre s).nextAnswer = .busFault ∧ t = takeTransportError b (runBytes pre s).useAnswer) ∨
        ((runBytes pre s).nextAnswer = .reset ∧ t = resetDuringTransfer (runBytes pre s).useAnswer))
  | [], _, _, _, h => by cases h
  | b :: bs, last, s, t, h => by
    rw [transferAll_cons] at h
    rcases transfer_cases b s with ⟨_, ht⟩ | ⟨ha, ht⟩ | ⟨ha, ht⟩ | ⟨_, ht⟩ <;> rw [ht] at h
    · rw [andThen_got] at h
      obtain ⟨pre, c, post, rfl, hc⟩ := transferAll_ended h
      exact ⟨b :: pre, c, post, rfl, hc⟩
    · cases h
      exact ⟨[], b, bs, rfl, .inl ⟨ha, rfl⟩⟩
    · cases h
      exact ⟨[], b, bs, rfl, .inr ⟨ha, rfl⟩⟩
    · cases h

/-! ### The coming answers -/

theorem nextAnswer_eq_ok_of_all {s : State} (h : (s.answers.all (· == .ok)) = true) : s.nextAnswer = .ok := by
  unfold State.nextAnswer
  cases ha : s.answers with
  | nil => rfl
  | cons a as =>
    simp only [ha, List.all_cons, Bool.and_eq_true, beq_iff_eq] at h
    simp [h.1]

/-! The contract checks of `SEND_CMD` touch the device only. -/

section
variable (op : Operation) (s : State)
@[simp] theorem contractOfOperation_cfg : (contractOfOperation op s).cfg = s.cfg := by cases op <;> rfl
@[simp] theorem contractOfOperation_csN : (contractOfOperation op s).csN = s.csN := by cases op <;> rfl
@[simp] theorem contractOfOperation_fault : (contractOfOperation op s).fault = s.fault := by cases op <;> rfl
@[simp] theorem contractOfOperation_trace : (contractOfOperation op s).trace = s.trace := by cases op <;> rfl
@[simp] theorem contractOfOperation_responses : (contractOfOperation op s).responses = s.responses := by
  cases op <;> rfl
@[simp] theorem contractOfOperation_inputs : (contractOfOperation op s).inputs = s.inputs := by cases op <;> rfl
@[simp] theorem contractOfOperation_answers : (contractOfOperation op s).answers = s.answers := by cases op <;> rfl
@[simp] theorem contractOfOperation_draws : (contractOfOperation op s).draws = s.draws := by cases op <;> rfl
end

@[simp] theorem contractOfOperation_read (s : State) : contractOfOperation .read s = s := rfl
@[simp] theorem contractOfOperation_write (s : State) : contractOfOperation .write s = s := rfl

section
variable (addr : ReqAddr) (s : State)
@[simp] theorem contractOfAddress_cfg : (contractOfAddress addr s).cfg = s.cfg := by unfold contractOfAddress; split <;> rfl
@[simp] theorem contractOfAddress_csN : (contractOfAddress addr s).csN = s.csN := by unfold contractOfAddress; split <;> rfl
@[simp] theorem contractOfAddress_fault : (contractOfAddress addr s).fault = s.fault := by
  unfold contractOfAddress; split <;> rfl
@[simp] theorem contractOfAddress_trace : (contractOfAddress addr s).trace = s.trace := by
  unfold contractOfAddress; split <;> rfl
@[simp] theorem contractOfAddress_responses : (contractOfAddress addr s).responses = s.responses := by
  unfold contractOfAddress; split <;> rfl
@[simp] theorem contractOfAddress_inputs : (contractOfAddress addr s).inputs = s.inputs := by
  unfold contractOfAddress; split <;> rfl
@[simp] theorem contractOfAddress_answers : (contractOfAddress addr s).answers = s.answers := by
  unfold contractOfAddress; split <;> rfl
@[simp] theorem contractOfAddress_draws : (contractOfAddress addr s).draws = s.draws := by
  unfold contractOfAddress; split <;> rfl
end

/-- A request address in the contract changes nothing. -/
theorem contractOfAddress_of_lt {addr : ReqAddr} {s : State} (h : addr.toNat < s.cfg.deviceCapacity) :
    contractOfAddress addr s = s := if_pos h

/-- A request address out of the contract leaves the device unspecified (R66, R93). -/
theorem contractOfAddress_of_ge {addr : ReqAddr} {s : State} (h : ¬ addr.toNat < s.cfg.deviceCapacity) :
    contractOfAddress addr s = { s with dev := s.dev.lose } := if_neg h

/-- The address check never makes an unspecified device specified, and otherwise leaves the device alone. -/
theorem contractOfAddress_specified {addr : ReqAddr} {s : State} (h : (contractOfAddress addr s).dev.lost = false) :
    addr.toNat < s.cfg.deviceCapacity ∧ contractOfAddress addr s = s := by
  by_cases ha : addr.toNat < s.cfg.deviceCapacity
  · exact ⟨ha, contractOfAddress_of_lt ha⟩
  · rw [contractOfAddress_of_ge ha] at h
    cases h

/-! ### The start and the end of an instruction -/

theorem unlessFaulted_of_none {s : State} {f : State → Host.Outcome State Fault Refusal} (h : s.fault = .none) :
    unlessFaulted s f = f s := by simp only [unlessFaulted, h]

theorem unlessFaulted_of_fault {s : State} {f : State → Host.Outcome State Fault Refusal}
    (h : s.fault = .transportError) : unlessFaulted s f = .next (respond .transportError 0 s) := by
  simp only [unlessFaulted, h]

@[simp] theorem finishRequest_got (f : Byte → Byte) (rx : Byte) (s : State) :
    finishRequest f (.got rx s) = .next (respond .ok (f rx) s) := rfl
@[simp] theorem finishRequest_ended (f : Byte → Byte) (s : State) : finishRequest f (.ended s) = .next s := rfl
@[simp] theorem finishRequest_stalled (f : Byte → Byte) :
    finishRequest f .stalled = .fault .stalledTransfer := rfl
@[simp] theorem finishFrame_got (rx : Byte) (s : State) : finishFrame (.got rx s) = .next s := rfl
@[simp] theorem finishFrame_ended (s : State) : finishFrame (.ended s) = .next s := rfl
@[simp] theorem finishFrame_stalled : finishFrame .stalled = .fault .stalledTransfer := rfl

end Sys2Proof.Machine
end

