-- ==== Sys2Proof/Laws/Frames.lean ====
section
/-! SUPPORT. The frames of R47 and R48 on a transport that completes their transfers. -/

namespace Sys2Proof.Machine

open Sys2Proof

/-! ### Answers -/

theorem answersOk_next {n : Nat} {s : State} (h : s.answersOk (n + 1) = true) : s.nextAnswer = .ok := by
  unfold State.answersOk at h
  unfold State.nextAnswer
  cases ha : s.answers with
  | nil => rfl
  | cons a as => simp_all

theorem answersOk_tail {n : Nat} {s t : State} (ht : t.answers = s.answers.tail) (h : s.answersOk (n + 1) = true) :
    t.answersOk n = true := by
  unfold State.answersOk at h ⊢
  rw [ht]
  cases ha : s.answers with
  | nil => simp
  | cons a as =>
    simp only [ha, List.take_succ_cons, List.all_cons, Bool.and_eq_true] at h
    exact h.2

theorem answersOk_congr {n : Nat} {s t : State} (ht : t.answers = s.answers) (h : s.answersOk n = true) :
    t.answersOk n = true := by
  simpa [State.answersOk, ht] using h

theorem answersOk_mono {m n : Nat} {s : State} (hmn : m ≤ n) (h : s.answersOk n = true) : s.answersOk m = true := by
  unfold State.answersOk at h ⊢
  rw [List.all_eq_true] at h ⊢
  intro x hx
  exact h x ((List.take_subset_take_left s.answers hmn) hx)

theorem answersOk_of_allAnswersOk {s : State} (n : Nat) (h : s.allAnswersOk = true) : s.answersOk n = true := by
  unfold State.allAnswersOk at h
  unfold State.answersOk
  rw [List.all_eq_true] at h ⊢
  exact fun x hx => h x (List.mem_of_mem_take hx)

theorem answersOk_afterTransfer {n : Nat} {tx : Byte} {s : State} (h : s.answersOk (n + 1) = true) :
    (afterTransfer tx s).answersOk n = true := answersOk_tail rfl h

@[simp] theorem tail_twice (l : List Answer) : l.tail.tail = l.drop 2 := by simp [← List.drop_one]

@[simp] theorem drop_two_tail_twice (l : List Answer) : (l.drop 2).tail.tail = l.drop 4 := by simp [← List.drop_one]

/-! ### The frames -/

/-- The state of `SEND_CMD` or a wire header after chip-select and the contract check. -/
def headerStart (op : Operation) (s : State) : State := contractOfOperation op (setCS .low s)

section
variable (op : Operation) (s : State)
@[simp] theorem headerStart_cfg : (headerStart op s).cfg = s.cfg := by simp [headerStart]
@[simp] theorem headerStart_csN : (headerStart op s).csN = .low := by simp [headerStart]
@[simp] theorem headerStart_fault : (headerStart op s).fault = s.fault := by simp [headerStart]
@[simp] theorem headerStart_trace : (headerStart op s).trace = s.trace ++ [.cs .low] := by simp [headerStart]
@[simp] theorem headerStart_responses : (headerStart op s).responses = s.responses := by simp [headerStart]
@[simp] theorem headerStart_inputs : (headerStart op s).inputs = s.inputs := by simp [headerStart]
@[simp] theorem headerStart_answers : (headerStart op s).answers = s.answers := by simp [headerStart]
@[simp] theorem headerStart_draws : (headerStart op s).draws = s.draws := by simp [headerStart]
end

/-- The state after the four bytes of a header. -/
def headerEnd (op : Operation) (a : WireAddr) (s : State) : State :=
  runBytes (headerBytes op.opcode a) (headerStart op s)

theorem headerEnd_eq (op : Operation) (a : WireAddr) (s : State) :
    headerEnd op a s = afterTransfer (addrByte3 a) (afterTransfer (addrByte2 a) (afterTransfer (addrByte1 a)
      (afterTransfer op.opcode (headerStart op s)))) := rfl

/-- Format A on a transport that completes its four transfers (R47). -/
theorem sendHeader_ok {op : Operation} {a : WireAddr} {s : State} (h : s.answersOk 4 = true) :
    ∃ rx, sendHeader op a s = .got rx (headerEnd op a s) := by
  have h0 : (headerStart op s).answersOk 4 = true := answersOk_congr (by simp) h
  have h1 := answersOk_afterTransfer (tx := op.opcode) h0
  have h2 := answersOk_afterTransfer (tx := addrByte1 a) h1
  have h3 := answersOk_afterTransfer (tx := addrByte2 a) h2
  refine ⟨rxOf (addrByte3 a) (afterTransfer (addrByte2 a) (afterTransfer (addrByte1 a)
    (afterTransfer op.opcode (headerStart op s)))), ?_⟩
  unfold sendHeader headerBytes
  rw [← headerStart, transferAll_cons_ok (answersOk_next h0), transferAll_cons_ok (answersOk_next h1),
    transferAll_cons_ok (answersOk_next h2), transferAll_cons_ok (answersOk_next h3), transferAll_nil]
  rfl

/-- The state after the second byte of a status frame, before chip-select rises. -/
def statusBytes (opc d : Byte) (s : State) : State := afterTransfer d (afterTransfer opc (setCS .low s))

/-- The byte the second transfer of a status frame receives. -/
def statusRx (opc d : Byte) (s : State) : Byte := rxOf d (afterTransfer opc (setCS .low s))

/-- Format S on a transport that completes its two transfers (R48). -/
theorem sendStatusFrame_ok {opc d : Byte} {s : State} (h : s.answersOk 2 = true) :
    sendStatusFrame opc d s = .got (statusRx opc d s) (setCS .high (statusBytes opc d s)) := by
  have h0 : (setCS .low s).answersOk 2 = true := answersOk_congr rfl h
  have h1 := answersOk_afterTransfer (tx := opc) h0
  unfold sendStatusFrame
  rw [transferAll_cons_ok (answersOk_next h0), transferAll_cons_ok (answersOk_next h1), transferAll_nil]
  rfl

/-! ### The device through a frame -/

theorem devAfter_of_lost {tx : Byte} {s : State} (h : s.dev.lost = true) : (devAfter tx s).lost = true :=
  Device.lost_exchange h

theorem headerEnd_lost {op : Operation} {a : WireAddr} {s : State} (h : (headerStart op s).dev.lost = true) :
    (headerEnd op a s).dev.lost = true := by
  simp only [headerEnd_eq, afterTransfer_dev]
  exact devAfter_of_lost (devAfter_of_lost (devAfter_of_lost (devAfter_of_lost h)))

theorem statusBytes_lost {opc d : Byte} {s : State} (h : (setCS .low s).dev.lost = true) :
    (setCS .high (statusBytes opc d s)).dev.lost = true := by
  have : (statusBytes opc d s).dev.lost = true := devAfter_of_lost (devAfter_of_lost h)
  simp only [setCS_dev]
  cases (statusBytes opc d s).csN <;> exact Device.lost_deselect this

/-- A specified device on a high line that is selected. -/
theorem setCS_low_dev {s : State} (hc : s.csN = .high) (hl : s.dev.lost = false) :
    (setCS .low s).dev = { s.dev with phase := .opened } := by
  simp [hc, chipSelectAtDevice, Device.select_of_specified hl]

/-- A command inside an open burst, or at an unspecified device, leaves it unspecified (R66, U7). -/
theorem setCS_low_lost {s : State} (h : s.csN = .low ∨ s.dev.lost = true) : (setCS .low s).dev.lost = true := by
  rw [setCS_dev]
  cases hc : s.csN
  · rfl
  · rcases h with h | h
    · simp [hc] at h
    · exact Device.lost_select h

/-- A Read or Write header at a specified device on a high line (R27). -/
theorem headerEnd_dev {op : Operation} {k : BurstKind} {a : WireAddr} {s : State} (hc : s.csN = .high)
    (hl : s.dev.lost = false) (hop : (op = .read ∧ k = .read) ∨ (op = .write ∧ k = .write)) :
    (headerEnd op a s).dev =
      Device.loadCounter s.cfg.deviceCapacity { s.dev with phase := .header k [addrByte1 a, addrByte2 a] } k a := by
  have h0 : (headerStart op s).dev = { s.dev with phase := .opened } := by
    rcases hop with ⟨rfl, _⟩ | ⟨rfl, _⟩ <;> simp only [headerStart, contractOfOperation_read,
      contractOfOperation_write, setCS_low_dev hc hl]
  have h1 : (afterTransfer op.opcode (headerStart op s)).dev = { s.dev with phase := .header k [] } := by
    rw [afterTransfer_dev, devAfter, h0, Device.exchange_opened (d := { s.dev with phase := .opened }) hl rfl]
    rcases hop with ⟨rfl, rfl⟩ | ⟨rfl, rfl⟩ <;> simp [Operation.opcode]
  have h2 : (afterTransfer (addrByte1 a) (afterTransfer op.opcode (headerStart op s))).dev =
      { s.dev with phase := .header k [addrByte1 a] } := by
    rw [afterTransfer_dev, devAfter, h1, Device.exchange_header (d := { s.dev with phase := .header k [] }) hl rfl]
    simp [Device.takeAddressByte]
  have h3 : (afterTransfer (addrByte2 a) (afterTransfer (addrByte1 a)
      (afterTransfer op.opcode (headerStart op s)))).dev =
      { s.dev with phase := .header k [addrByte1 a, addrByte2 a] } := by
    rw [afterTransfer_dev, devAfter, h2, Device.exchange_header (d := { s.dev with phase := .header k [addrByte1 a] }) hl rfl]
    simp [Device.takeAddressByte]
  rw [headerEnd_eq, afterTransfer_dev, devAfter, h3, Device.exchange_header (d := { s.dev with phase := .header k [addrByte1 a, addrByte2 a] }) hl rfl]
  simp [Device.takeAddressByte]

/-- After the opcode of a status write at a specified device on a high line (R27). -/
theorem statusWriteOpcode_dev {s : State} (hc : s.csN = .high) (hl : s.dev.lost = false) :
    (afterTransfer opcWrsr (setCS .low s)).dev = { s.dev with phase := .statusWrite } := by
  rw [afterTransfer_dev, devAfter, setCS_low_dev hc hl,
    Device.exchange_opened (d := { s.dev with phase := .opened }) hl rfl]
  simp

/-- After the opcode of a status read at a specified device on a high line (R27). -/
theorem statusReadOpcode_dev {s : State} (hc : s.csN = .high) (hl : s.dev.lost = false) :
    (afterTransfer opcRdsr (setCS .low s)).dev = { s.dev with phase := .statusRead } := by
  rw [afterTransfer_dev, devAfter, setCS_low_dev hc hl,
    Device.exchange_opened (d := { s.dev with phase := .opened }) hl rfl]
  simp

/-- A status write at a specified device on a high line (R27). -/
theorem statusWrite_dev {d : Byte} {s : State} (hc : s.csN = .high) (hl : s.dev.lost = false) :
    (setCS .high (statusBytes opcWrsr d s)).dev =
      { s.dev with status := d, statusKnown := true, phase := .idle, ctr := none } := by
  have h1 := statusWriteOpcode_dev hc hl
  have h2 : (statusBytes opcWrsr d s).dev =
      { s.dev with status := d, statusKnown := true, phase := .spent } := by
    rw [statusBytes, afterTransfer_dev, devAfter, h1, Device.exchange_statusWrite (d := { s.dev with phase := .statusWrite }) hl rfl]
  rw [setCS_dev, h2, show (statusBytes opcWrsr d s).csN = .low from rfl]
  exact Device.deselect_spent hl rfl

/-- A status read at a specified device on a high line (R27, R71). -/
theorem statusRead_dev {d : Byte} {s : State} (hc : s.csN = .high) (hl : s.dev.lost = false) :
    (setCS .high (statusBytes opcRdsr d s)).dev = { s.dev with phase := .idle, ctr := none } ∧
    ∃ free, statusRx opcRdsr d s = statusReadback s.dev.status free := by
  have h1 := statusReadOpcode_dev hc hl
  have h2 : (statusBytes opcRdsr d s).dev = { s.dev with phase := .spent } := by
    rw [statusBytes, afterTransfer_dev, devAfter, h1, Device.exchange_statusRead (d := { s.dev with phase := .statusRead }) hl rfl]
  refine ⟨?_, Config.freeRx (afterTransfer opcRdsr (setCS .low s)).draws, ?_⟩
  · rw [setCS_dev, h2, show (statusBytes opcRdsr d s).csN = .low from rfl]
    exact Device.deselect_spent hl rfl
  · rw [statusRx, rxOf, h1, Device.exchange_statusRead (d := { s.dev with phase := .statusRead }) hl rfl]

/-! ### An instruction as a script -/

/-- An instruction of an unfaulted framer: it has no step, or it answers at once, or it makes a run of transfers from
a start, and closes with the byte received last. -/
inductive Plan where
  | stop (r : Refusal)
  | answer (t : State)
  | run (start : State) (bytes : List Byte) (close : Byte → State → State)

/-- How a plan turns out. -/
def Plan.outcome : Plan → Host.Outcome State Fault Refusal
  | .stop r => .refused r
  | .answer t => .next t
  | .run start bytes close =>
    match transferAll 0 bytes start with
    | .got rx u => .next (close rx u)
    | .ended u => .next u
    | .stalled => .fault .stalledTransfer

/-- The plan of each instruction (R63 to R65, R70, R71, R77, and the wire rows). -/
def plan (i : Instr) (s : State) : Plan :=
  match i with
  | .sendCmd op addr =>
    .run (headerStart op (contractOfAddress addr s)) (headerBytes op.opcode (wireAddr addr)) fun _ u =>
      respond .ok 0 u
  | .xfer data => .run s [data] fun rx u => respond .ok rx u
  | .endCmd => .answer (respond .ok 0 (setCS .high s))
  | .setModeByte => .run (setCS .low s) [opcWrsr, modeCode s.cfg .byte] fun _ u => respond .ok 0 (setCS .high u)
  | .setModeSequential =>
    .run (setCS .low s) [opcWrsr, modeCode s.cfg .sequential] fun _ u => respond .ok 0 (setCS .high u)
  | .setModePage => .run (setCS .low s) [opcWrsr, modeCode s.cfg .page] fun _ u => respond .ok 0 (setCS .high u)
  | .setModeReserved => .answer (respond .illegalRequest 0 s)
  | .readStatus => .run (setCS .low s) [opcRdsr, dummyTx] fun rx u => respond .ok rx (setCS .high u)
  | .reservedKind5 => .answer (respond .illegalRequest 0 s)
  | .reservedKind6To7 _ => .answer (respond .illegalRequest 0 s)
  | .reservedKind8ToF _ => .answer (respond .illegalRequest 0 s)
  | .wireRead a => .run (headerStart .read s) (headerBytes Operation.read.opcode a) fun _ u => u
  | .wireWrite a => .run (headerStart .write s) (headerBytes Operation.write.opcode a) fun _ u => u
  | .wireWrsr code => .run (setCS .low s) [opcWrsr, code] fun _ u => setCS .high u
  | .wireRdsr dummy => .run (setCS .low s) [opcRdsr, dummy] fun _ u => setCS .high u
  | .wireRdsrA a => .run (headerStart .readStatus s) (headerBytes Operation.readStatus.opcode a) fun _ u => u
  | .wireWrsrA a => .run (headerStart .writeStatus s) (headerBytes Operation.writeStatus.opcode a) fun _ u => u
  | .wireHsread => .stop .opcodeNeverEmitted
  | .wireRstio => .stop .opcodeNeverEmitted

theorem finishRequest_andThen_eq {f : Byte → Byte} {bs : List Byte} {u : State} (r : XferResult)
    (hr : transferAll 0 bs u = r) :
    finishRequest f (r.andThen fun rx v => .got rx (setCS .high v)) =
      (Plan.run u bs fun rx v => respond .ok (f rx) (setCS .high v)).outcome := by
  subst hr
  simp only [Plan.outcome]
  cases transferAll 0 bs u <;> rfl

theorem finishFrame_andThen_eq {bs : List Byte} {u : State} (r : XferResult) (hr : transferAll 0 bs u = r) :
    finishFrame (r.andThen fun rx v => .got rx (setCS .high v)) =
      (Plan.run u bs fun _ v => setCS .high v).outcome := by
  subst hr
  simp only [Plan.outcome]
  cases transferAll 0 bs u <;> rfl

theorem finishRequest_eq {f : Byte → Byte} {bs : List Byte} {u : State} :
    finishRequest f (transferAll 0 bs u) = (Plan.run u bs fun rx v => respond .ok (f rx) v).outcome := by
  simp only [Plan.outcome]
  cases transferAll 0 bs u <;> rfl

theorem finishFrame_eq {bs : List Byte} {u : State} :
    finishFrame (transferAll 0 bs u) = (Plan.run u bs fun _ v => v).outcome := by
  simp only [Plan.outcome]
  cases transferAll 0 bs u <;> rfl

theorem transfer_eq_transferAll (tx : Byte) (s : State) : transfer tx s = transferAll 0 [tx] s := by
  rw [transferAll_cons]
  cases transfer tx s <;> rfl

/-- What exec does in an unfaulted state: its plan. -/
theorem exec_of_unfaulted {s : State} (hf : s.fault = .none) (i : Instr) : exec i s = (plan i s).outcome := by
  cases i <;>
    simp only [exec, execSendCmd, execXfer, execEndCmd, execSetModeByte, execSetModeSequential, execSetModePage,
      setMode, execSetModeReserved, execReadStatus, execReservedKind5, execReservedKind6To7,
      execReservedKind8ToF, execWireRead, execWireWrite, execWireWrsr, execWireRdsr, execWireRdsrA,
      execWireWrsrA, execWireHsread, execWireRstio, unlessFaulted_of_none hf, plan]
  case sendCmd => exact finishRequest_eq
  case xfer =>
    rw [transfer_eq_transferAll]
    exact finishRequest_eq
  case endCmd => rfl
  case setModeByte => exact finishRequest_andThen_eq _ rfl
  case setModeSequential => exact finishRequest_andThen_eq _ rfl
  case setModePage => exact finishRequest_andThen_eq _ rfl
  case setModeReserved => rfl
  case readStatus => exact finishRequest_andThen_eq _ rfl
  case reservedKind5 => rfl
  case reservedKind6To7 => rfl
  case reservedKind8ToF => rfl
  case wireRead => exact finishFrame_eq
  case wireWrite => exact finishFrame_eq
  case wireWrsr => exact finishFrame_andThen_eq _ rfl
  case wireRdsr => exact finishFrame_andThen_eq _ rfl
  case wireRdsrA => exact finishFrame_eq
  case wireWrsrA => exact finishFrame_eq
  case wireHsread => rfl
  case wireRstio => rfl

/-- What exec does in a faulted state: the answer TransportError, and nothing else (R78); the two reserved opcode
rows have no step in any state. -/
theorem exec_of_faulted {s : State} (hf : s.fault = .transportError) {i : Instr} (h1 : i ≠ .wireHsread)
    (h2 : i ≠ .wireRstio) : exec i s = .next (respond .transportError 0 s) := by
  cases i <;>
    first
    | exact absurd rfl h1
    | exact absurd rfl h2
    | simp only [exec, execSendCmd, execXfer, execEndCmd, execSetModeByte, execSetModeSequential, execSetModePage,
        setMode, execSetModeReserved, execReadStatus, execReservedKind5, execReservedKind6To7,
        execReservedKind8ToF, execWireRead, execWireWrite, execWireWrsr, execWireRdsr, execWireRdsrA,
        execWireWrsrA, unlessFaulted_of_fault hf]

/-- An instruction that answers next is none of the two reserved opcode rows (R53). -/
theorem emitted_of_next {i : Instr} {s t : State} (h : exec i s = .next t) : i ≠ .wireHsread ∧ i ≠ .wireRstio := by
  constructor <;> rintro rfl <;> cases h

/-- Everything an instruction can do when it answers next: the faulted answer; an answer at once; a run of
transfers that went through; one that a bus fault or a reset ended. -/
theorem exec_next_cases {i : Instr} {s t : State} (h : exec i s = .next t) :
    (s.fault = .transportError ∧ t = respond .transportError 0 s) ∨
    (s.fault = .none ∧ plan i s = .answer t) ∨
    (s.fault = .none ∧ ∃ start bytes close, plan i s = .run start bytes close ∧
      ((∃ rx, transferAll 0 bytes start = .got rx (runBytes bytes start) ∧ t = close rx (runBytes bytes start)) ∨
      (∃ pre b post, bytes = pre ++ b :: post ∧
        (((runBytes pre start).nextAnswer = .busFault ∧ t = takeTransportError b (runBytes pre start).useAnswer) ∨
        ((runBytes pre start).nextAnswer = .reset ∧ t = resetDuringTransfer (runBytes pre start).useAnswer))))) := by
  cases hf : s.fault
  · rw [exec_of_unfaulted hf] at h
    cases hp : plan i s with
    | stop r =>
      rw [hp] at h
      cases h
    | answer u =>
      rw [hp] at h
      cases h
      exact .inr (.inl ⟨rfl, rfl⟩)
    | run start bytes close =>
      refine .inr (.inr ⟨rfl, start, bytes, close, rfl, ?_⟩)
      rw [hp] at h
      simp only [Plan.outcome] at h
      split at h
      · rename_i rx u hu
        cases h
        have := transferAll_got hu
        subst this
        exact .inl ⟨rx, hu, rfl⟩
      · rename_i u hu
        cases h
        exact .inr (transferAll_ended hu)
      · cases h
  · rw [exec_of_faulted hf (emitted_of_next h).1 (emitted_of_next h).2] at h
    cases h
    exact .inl ⟨rfl, rfl⟩

end Sys2Proof.Machine
end

