-- ==== Sys2Proof/Laws/Complete.lean ====
section
/-! SUPPORT. The next state of each request, wire row and composite on a transport that completes its transfers, as a
term, for later proofs to rewrite with. -/

namespace Sys2Proof.Machine

open Sys2Proof

theorem exec_sendCmd_eq {op : Operation} {addr : ReqAddr} {s : State} (hf : s.fault = .none)
    (ha : s.answersOk 4 = true) :
    exec (.sendCmd op addr) s = .next (respond .ok 0 (headerEnd op (wireAddr addr) (contractOfAddress addr s))) := by
  obtain ⟨rx, h⟩ := sendHeader_ok (op := op) (a := wireAddr addr) (s := contractOfAddress addr s)
    (answersOk_congr (by simp) ha)
  simp only [exec, execSendCmd, unlessFaulted_of_none hf, h, finishRequest_got, noData]

theorem exec_xfer_eq {d : Byte} {s : State} (hf : s.fault = .none) (ha : s.answersOk 1 = true) :
    exec (.xfer d) s = .next (respond .ok (rxOf d s) (afterTransfer d s)) := by
  simp only [exec, execXfer, unlessFaulted_of_none hf, transfer_of_ok (answersOk_next ha), finishRequest_got,
    receivedByte]

theorem exec_endCmd_eq {s : State} (hf : s.fault = .none) :
    exec .endCmd s = .next (respond .ok 0 (setCS .high s)) := by
  simp only [exec, execEndCmd, unlessFaulted_of_none hf]

theorem setMode_eq {m : TransferMode} {s : State} (hf : s.fault = .none) (ha : s.answersOk 2 = true) :
    setMode m s = .next (respond .ok 0 (setCS .high (statusBytes opcWrsr (modeCode s.cfg m) s))) := by
  simp only [setMode, unlessFaulted_of_none hf, sendStatusFrame_ok ha, finishRequest_got, noData]

theorem exec_readStatus_eq {s : State} (hf : s.fault = .none) (ha : s.answersOk 2 = true) :
    exec .readStatus s =
      .next (respond .ok (statusRx opcRdsr dummyTx s) (setCS .high (statusBytes opcRdsr dummyTx s))) := by
  simp only [exec, execReadStatus, unlessFaulted_of_none hf, sendStatusFrame_ok ha, finishRequest_got, receivedByte]

/-- A transport that completes everything still does after some answers are used up. -/
theorem allAnswersOk_drop {s t : State} {n : Nat} (h : s.allAnswersOk = true) (ht : t.answers = s.answers.drop n) :
    t.allAnswersOk = true := by
  unfold State.allAnswersOk at h ⊢
  rw [List.all_eq_true] at h ⊢
  rw [ht]
  exact fun x hx => h x (List.mem_of_mem_drop hx)

/-- Running two lists of instructions one after the other. -/
theorem execAll_append : ∀ {is js : List Instr} {s t : State}, execAll is s = .next t →
    execAll (is ++ js) s = execAll js t
  | [], _, _, _, h => by
    cases h
    rfl
  | i :: is, js, s, t, h => by
    simp only [execAll, List.cons_append] at h ⊢
    cases he : exec i s with
    | next u =>
      rw [he] at h
      exact execAll_append h
    | fault r =>
      rw [he] at h
      cases h
    | refused r =>
      rw [he] at h
      cases h

end Sys2Proof.Machine
end

