-- ==== Sys2Proof/Laws/PerInstr.lean ====
section
/-! SUPPORT. Facts about every instruction as syntax, one lemma per constructor. -/

/-- The form of a row's encoding: a request row is one 48-bit word (R54), a wire row a frame of one, two or four
bytes (R47, R48, R53). -/
def Sys2Proof.Laws.EncodingForm.Statement (i : Sys2Proof.Instr) : Prop :=
  match Sys2Proof.encode i with
  | .request _ => i.isRequest = true
  | .frame bytes => i.isRequest = false ∧ (bytes.length = 1 ∨ bytes.length = 2 ∨ bytes.length = 4)

namespace Sys2Proof.Laws.EncodingForm

open Sys2Proof

theorem sendCmd (op : Operation) (addr : ReqAddr) : Statement (.sendCmd op addr) := rfl
theorem xfer (data : Byte) : Statement (.xfer data) := rfl
theorem endCmd : Statement .endCmd := rfl
theorem setModeByte : Statement .setModeByte := rfl
theorem setModeSequential : Statement .setModeSequential := rfl
theorem setModePage : Statement .setModePage := rfl
theorem setModeReserved : Statement .setModeReserved := rfl
theorem readStatus : Statement .readStatus := rfl
theorem reservedKind5 : Statement .reservedKind5 := rfl
theorem reservedKind6To7 (kind : BitVec 4) : Statement (.reservedKind6To7 kind) := rfl
theorem reservedKind8ToF (kind : BitVec 4) : Statement (.reservedKind8ToF kind) := rfl
theorem wireRead (addr : WireAddr) : Statement (.wireRead addr) := ⟨rfl, .inr (.inr rfl)⟩
theorem wireWrite (addr : WireAddr) : Statement (.wireWrite addr) := ⟨rfl, .inr (.inr rfl)⟩
theorem wireWrsr (code : Byte) : Statement (.wireWrsr code) := ⟨rfl, .inr (.inl rfl)⟩
theorem wireRdsr (dummy : Byte) : Statement (.wireRdsr dummy) := ⟨rfl, .inr (.inl rfl)⟩
theorem wireRdsrA (addr : WireAddr) : Statement (.wireRdsrA addr) := ⟨rfl, .inr (.inr rfl)⟩
theorem wireWrsrA (addr : WireAddr) : Statement (.wireWrsrA addr) := ⟨rfl, .inr (.inr rfl)⟩
theorem wireHsread : Statement .wireHsread := ⟨rfl, .inl rfl⟩
theorem wireRstio : Statement .wireRstio := ⟨rfl, .inl rfl⟩

end Sys2Proof.Laws.EncodingForm
end

