-- ==== Sys2Proof/Laws/Trace.lean ====
section
/-! SUPPORT. What the readings of a trace give on appended traces and on a run of transfers. -/

namespace Sys2Proof.Machine

open Sys2Proof

@[simp] theorem wireBytes_append (es fs : List Event) : wireBytes (es ++ fs) = wireBytes es ++ wireBytes fs := by
  simp [wireBytes]

@[simp] theorem csLevels_append (es fs : List Event) : csLevels (es ++ fs) = csLevels es ++ csLevels fs := by
  simp [csLevels]

@[simp] theorem transferCount_append (es fs : List Event) :
    transferCount (es ++ fs) = transferCount es + transferCount fs := by
  simp [transferCount]

@[simp] theorem hasBusFault_append (es fs : List Event) :
    hasBusFault (es ++ fs) = (hasBusFault es || hasBusFault fs) := by
  simp [hasBusFault]

/-- The level after a longer trace is the level the addition leaves. -/
theorem lineAfter_append (l : Level) (es fs : List Event) :
    lineAfter l (es ++ fs) = lineAfter (lineAfter l es) fs := by
  simp only [lineAfter, csLevels_append, List.getLast?_append]
  cases (csLevels fs).getLast? <;> simp

/-! ### A run of transfers -/

theorem wireBytes_zipWith_t : ∀ {bs rxs : List Byte}, rxs.length = bs.length →
    wireBytes (List.zipWith Event.t bs rxs) = bs
  | [], [], _ => rfl
  | b :: bs, r :: rxs, h => by
    have := wireBytes_zipWith_t (bs := bs) (rxs := rxs) (by simpa using h)
    simp only [wireBytes, List.zipWith_cons_cons, List.filterMap_cons, Event.sent] at this ⊢
    rw [this]

@[simp] theorem hasBusFault_zipWith_t : ∀ (bs rxs : List Byte), hasBusFault (List.zipWith Event.t bs rxs) = false
  | [], _ => by simp [hasBusFault]
  | _ :: _, [] => by simp [hasBusFault]
  | b :: bs, r :: rxs => by
    have := hasBusFault_zipWith_t bs rxs
    simp only [hasBusFault, List.zipWith_cons_cons, List.any_cons, Bool.false_or] at this ⊢
    exact this

@[simp] theorem csLevels_zipWith_t : ∀ (bs rxs : List Byte), csLevels (List.zipWith Event.t bs rxs) = []
  | [], _ => by simp [csLevels]
  | _ :: _, [] => by simp [csLevels]
  | b :: bs, r :: rxs => by
    have := csLevels_zipWith_t bs rxs
    simp only [csLevels, List.zipWith_cons_cons, List.filterMap_cons, Event.level] at this ⊢
    exact this

@[simp] theorem lineAfter_zipWith_t (l : Level) (bs rxs : List Byte) :
    lineAfter l (List.zipWith Event.t bs rxs) = l := by
  simp [lineAfter]

theorem transferCount_zipWith_t : ∀ {bs rxs : List Byte}, rxs.length = bs.length →
    transferCount (List.zipWith Event.t bs rxs) = bs.length
  | [], [], _ => rfl
  | b :: bs, r :: rxs, h => by
    have := transferCount_zipWith_t (bs := bs) (rxs := rxs) (by simpa using h)
    simp only [transferCount, List.zipWith_cons_cons, List.countP_cons, List.length_cons] at this ⊢
    simp [this]

/-- Transfers put nothing in opcode position by themselves. -/
theorem opcodesOf_zipWith_t : ∀ (bs rxs : List Byte) (es : List Event),
    opcodesOf (List.zipWith Event.t bs rxs ++ es) = opcodesOf es
  | [], _, _ => by simp
  | _ :: _, [], _ => by simp
  | b :: bs, r :: rxs, es => by simp [opcodesOf, opcodesOf_zipWith_t bs rxs es]

/-! ### Longer traces -/

/-- The burst open after a trace, if one was open (or none) before it. -/
def openAfter : Option (List (Byte × Byte)) → List Event → Option (List (Byte × Byte))
  | o, [] => o
  | none, .cs .low :: es => openAfter (some []) es
  | some b, .cs .low :: es => openAfter (some b) es
  | _, .cs .high :: es => openAfter none es
  | none, .t _ _ :: es => openAfter none es
  | some b, .t tx rx :: es => openAfter (some (b ++ [(tx, rx)])) es
  | o, .tf _ :: es => openAfter o es

theorem burstsFrom_append : ∀ (es fs : List Event) (o : Option (List (Byte × Byte))),
    burstsFrom o (es ++ fs) = burstsFrom o es ++ burstsFrom (openAfter o es) fs
  | [], fs, o => by cases o <;> rfl
  | .cs .low :: es, fs, none => by simpa [burstsFrom, openAfter] using burstsFrom_append es fs _
  | .cs .low :: es, fs, some b => by simpa [burstsFrom, openAfter] using burstsFrom_append es fs _
  | .cs .high :: es, fs, none => by simpa [burstsFrom, openAfter] using burstsFrom_append es fs _
  | .cs .high :: es, fs, some b => by simpa [burstsFrom, openAfter] using burstsFrom_append es fs _
  | .t tx rx :: es, fs, none => by simpa [burstsFrom, openAfter] using burstsFrom_append es fs _
  | .t tx rx :: es, fs, some b => by simpa [burstsFrom, openAfter] using burstsFrom_append es fs _
  | .tf tx :: es, fs, none => by simpa [burstsFrom, openAfter] using burstsFrom_append es fs _
  | .tf tx :: es, fs, some b => by simpa [burstsFrom, openAfter] using burstsFrom_append es fs _

theorem openAfter_append : ∀ (es fs : List Event) (o : Option (List (Byte × Byte))),
    openAfter o (es ++ fs) = openAfter (openAfter o es) fs
  | [], fs, o => by cases o <;> rfl
  | .cs .low :: es, fs, none => by simpa [openAfter] using openAfter_append es fs _
  | .cs .low :: es, fs, some b => by simpa [openAfter] using openAfter_append es fs _
  | .cs .high :: es, fs, none => by simpa [openAfter] using openAfter_append es fs _
  | .cs .high :: es, fs, some b => by simpa [openAfter] using openAfter_append es fs _
  | .t tx rx :: es, fs, none => by simpa [openAfter] using openAfter_append es fs _
  | .t tx rx :: es, fs, some b => by simpa [openAfter] using openAfter_append es fs _
  | .tf tx :: es, fs, none => by simpa [openAfter] using openAfter_append es fs _
  | .tf tx :: es, fs, some b => by simpa [openAfter] using openAfter_append es fs _

/-- The bytes in opcode position of a longer trace, when the first part does not end with chip-select low. -/
theorem opcodesOf_append : ∀ (es fs : List Event), es.getLast? ≠ some (.cs .low) →
    opcodesOf (es ++ fs) = opcodesOf es ++ opcodesOf fs
  | [], fs, _ => rfl
  | [.cs .low], fs, h => by simp at h
  | .cs .low :: .cs l :: es, fs, h => by
    have := opcodesOf_append (.cs l :: es) fs (by simpa using h)
    simpa [opcodesOf] using this
  | .cs .low :: .t a b :: es, fs, h => by
    have := opcodesOf_append (.t a b :: es) fs (by simpa using h)
    simp only [List.cons_append] at this ⊢
    simp only [opcodesOf] at this ⊢
    rw [this]; rfl
  | .cs .low :: .tf a :: es, fs, h => by
    have := opcodesOf_append (.tf a :: es) fs (by simpa using h)
    simp only [List.cons_append] at this ⊢
    simp only [opcodesOf] at this ⊢
    rw [this]; rfl
  | .cs .high :: es, fs, h => by
    cases es with
    | nil => simp [opcodesOf]
    | cons x es =>
      have := opcodesOf_append (x :: es) fs (by simpa using h)
      simpa [opcodesOf] using this
  | .t _ _ :: es, fs, h => by
    cases es with
    | nil => simp [opcodesOf]
    | cons x es =>
      have := opcodesOf_append (x :: es) fs (by simpa using h)
      simpa [opcodesOf] using this
  | .tf _ :: es, fs, h => by
    cases es with
    | nil => simp [opcodesOf]
    | cons x es =>
      have := opcodesOf_append (x :: es) fs (by simpa using h)
      simpa [opcodesOf] using this

theorem noTransferWhileHigh_append : ∀ (es fs : List Event) (l : Level),
    noTransferWhileHigh l (es ++ fs) = (noTransferWhileHigh l es && noTransferWhileHigh (lineAfter l es) fs)
  | [], fs, l => by simp [noTransferWhileHigh, lineAfter, csLevels]
  | .cs m :: es, fs, l => by
    have := noTransferWhileHigh_append es fs m
    have h2 : lineAfter l (.cs m :: es) = lineAfter m es := by
      have := lineAfter_append l [.cs m] es
      simpa [lineAfter, csLevels, Event.level] using this
    rw [h2]; simpa [noTransferWhileHigh] using this
  | .t a b :: es, fs, l => by
    have := noTransferWhileHigh_append es fs l
    have h2 : lineAfter l (.t a b :: es) = lineAfter l es := by simp [lineAfter, csLevels, Event.level]
    rw [h2]; simp [noTransferWhileHigh, this, Bool.and_assoc]
  | .tf a :: es, fs, l => by
    have := noTransferWhileHigh_append es fs l
    have h2 : lineAfter l (.tf a :: es) = lineAfter l es := by simp [lineAfter, csLevels, Event.level]
    rw [h2]; simp [noTransferWhileHigh, this, Bool.and_assoc]

/-- The level `alternates` expects after a list of levels. -/
def nextLevel : Level → List Level → Level
  | l, [] => l
  | .low, _ :: ls => nextLevel .high ls
  | .high, _ :: ls => nextLevel .low ls

theorem alternates_append : ∀ (a b : List Level) (l : Level),
    alternates l (a ++ b) = (alternates l a && alternates (nextLevel l a) b)
  | [], b, l => by cases l <;> simp [alternates, nextLevel]
  | x :: a, b, .low => by simp [alternates, nextLevel, alternates_append a b .high, Bool.and_assoc]
  | x :: a, b, .high => by simp [alternates, nextLevel, alternates_append a b .low, Bool.and_assoc]

theorem nextLevel_append : ∀ (a b : List Level) (l : Level),
    nextLevel l (a ++ b) = nextLevel (nextLevel l a) b
  | [], b, l => by cases l <;> rfl
  | x :: a, b, .low => by simp [nextLevel, nextLevel_append a b .high]
  | x :: a, b, .high => by simp [nextLevel, nextLevel_append a b .low]

end Sys2Proof.Machine
end

