-- ==== Sys2Proof/Laws/Plan.lean ====
section
/-! SUPPORT. What every instruction's plan has in common: how it starts, how it closes, what an answer at once does,
and what a frame that leaves the device specified did to it. -/

namespace Sys2Proof.Machine

open Sys2Proof

/-! ### Plans -/

/-- The start of a run of transfers: the device and the line may have changed, and `CS(0)` may be recorded. -/
theorem plan_start {i : Instr} {s start : State} {bytes : List Byte} {close : Byte → State → State}
    (h : plan i s = .run start bytes close) :
    start.answers = s.answers ∧ start.fault = s.fault ∧ start.cfg = s.cfg ∧ start.inputs = s.inputs ∧
    start.responses = s.responses ∧ start.draws = s.draws ∧ bytes ≠ [] ∧
    ((start.trace = s.trace ∧ start.csN = s.csN) ∨ (start.trace = s.trace ++ [.cs .low] ∧ start.csN = .low)) := by
  cases i <;> simp only [plan] at h <;> cases h <;> simp [headerStart, headerBytes]

/-- The close of a run of transfers: the line may rise, a request gets its OK response, nothing else happens to the
framer. -/
theorem plan_close {i : Instr} {s start : State} {bytes : List Byte} {close : Byte → State → State}
    (h : plan i s = .run start bytes close) (rx : Byte) (u : State) :
    (((close rx u).trace = u.trace ∧ (close rx u).csN = u.csN ∧ (close rx u).dev = u.dev) ∨
      ((close rx u).trace = u.trace ++ [.cs .high] ∧ (close rx u).csN = .high ∧
        (close rx u).dev = (setCS .high u).dev)) ∧
    (close rx u).fault = u.fault ∧ (close rx u).cfg = u.cfg ∧ (close rx u).inputs = u.inputs ∧
    (close rx u).answers = u.answers ∧
    ((i.isRequest = false ∧ (close rx u).responses = u.responses) ∨
      (i.isRequest = true ∧ ∃ d, (close rx u).responses = u.responses ++ [⟨.ok, d⟩])) := by
  cases i <;> simp only [plan] at h <;> cases h <;> simp [Instr.isRequest]

/-- An answer at once: one response with data 0, OK for `END_CMD` only, which raises the line. -/
theorem plan_answer {i : Instr} {s t : State} (h : plan i s = .answer t) :
    t.fault = s.fault ∧ t.cfg = s.cfg ∧ t.inputs = s.inputs ∧ t.answers = s.answers ∧
    ((i = .endCmd ∧ t = respond .ok 0 (setCS .high s)) ∨ (i ≠ .endCmd ∧ t = respond .illegalRequest 0 s)) := by
  cases i <;> simp only [plan] at h <;> cases h <;> simp

/-- A run of transfers has as many bytes as its instruction makes transfers (R99). -/
theorem plan_length {i : Instr} {s start : State} {bytes : List Byte} {close : Byte → State → State}
    (h : plan i s = .run start bytes close) : bytes.length = transfersOf i := by
  cases i <;> simp only [plan] at h <;> cases h <;> rfl

/-- An instruction that makes a transfer is a run of transfers. -/
theorem plan_run_of_transfers {i : Instr} (s : State) (h : 0 < transfersOf i) :
    ∃ start bytes close, plan i s = .run start bytes close := by
  cases i <;> first | exact absurd h (Nat.lt_irrefl 0) | exact ⟨_, _, _, rfl⟩

/-- The byte after a `CS(0)` an instruction records is one of the four opcodes (R53). -/
theorem plan_opcode {i : Instr} {s start : State} {bytes : List Byte} {close : Byte → State → State}
    (h : plan i s = .run start bytes close) :
    start.trace = s.trace ∨ (start.trace = s.trace ++ [.cs .low] ∧
      ∃ b bs, bytes = b :: bs ∧ b ∈ ([0x01, 0x02, 0x03, 0x05] : List Byte)) := by
  cases i <;> simp only [plan] at h <;> cases h
  case xfer => exact .inl rfl
  case sendCmd op a =>
    refine .inr ⟨by simp, _, _, rfl, ?_⟩
    cases op <;> simp [Operation.opcode, opcRead, opcWrite, opcRdsr, opcWrsr]
  all_goals exact .inr ⟨by simp, _, _, rfl, by simp [opcWrsr, opcRdsr, Operation.opcode, opcRead, opcWrite]⟩

/-- A run of transfers whose first `k` complete goes on at the byte after them. -/
theorem transferAll_after_ok {a : Answer} {rest : List Answer} {k : Nat} {bs : List Byte} {last : Byte} {u : State}
    (hk : k < bs.length) (ha : u.answers = List.replicate k .ok ++ a :: rest) :
    ∃ last' b tl, bs.drop k = b :: tl ∧ transferAll last bs u = transferAll last' (b :: tl) (runBytes (bs.take k) u) ∧
      (runBytes (bs.take k) u).answers = a :: rest := by
  induction k generalizing bs last u with
  | zero =>
    cases bs with
    | nil => cases hk
    | cons b bs => exact ⟨last, b, bs, rfl, rfl, by simpa using ha⟩
  | succ k ih =>
    cases bs with
    | nil => cases hk
    | cons b bs =>
      obtain ⟨last', c, tl, h1, h2, h3⟩ := ih (bs := bs) (last := rxOf b u) (u := afterTransfer b u)
        (by simpa using hk) (by simp [ha, List.replicate_succ])
      refine ⟨last', c, tl, by simpa using h1, ?_, by rw [List.take_succ_cons, runBytes_cons]; exact h3⟩
      rw [transferAll_cons_ok (by simp [State.nextAnswer, ha, List.replicate_succ]), h2, List.take_succ_cons,
        runBytes_cons]

/-! ### A device that is still specified -/

/-- A device specified after chip-select falls was specified and on a high line. -/
theorem high_of_setCS_low {s : State} (h : (setCS .low s).dev.lost = false) : s.csN = .high ∧ s.dev.lost = false := by
  constructor
  · cases hc : s.csN
    · rw [setCS_low_lost (.inl hc)] at h
      cases h
    · rfl
  · cases hc : s.dev.lost
    · rfl
    · rw [setCS_low_lost (.inr hc)] at h
      cases h

/-- A device specified after a header: a Read or Write header in the contract, and the counter is loaded. -/
theorem headerEnd_specified {op : Operation} {a : WireAddr} {s : State} (h : (headerEnd op a s).dev.lost = false) :
    s.csN = .high ∧ s.dev.lost = false ∧ ∃ k : BurstKind,
      ((op = .read ∧ k = .read) ∨ (op = .write ∧ k = .write)) ∧ s.dev.mode.isSome = true ∧
      a.toNat < s.cfg.deviceCapacity ∧
      (headerEnd op a s).dev = { s.dev with phase := .data k true, ctr := some a.toNat } := by
  have h0 : (headerStart op s).dev.lost = false := by
    cases hc : (headerStart op s).dev.lost
    · rfl
    · rw [headerEnd_lost hc] at h
      cases h
  have hop : ∃ k : BurstKind, (op = .read ∧ k = .read) ∨ (op = .write ∧ k = .write) := by
    cases op
    · cases h0
    · cases h0
    · exact ⟨.read, by simp⟩
    · exact ⟨.write, by simp⟩
  obtain ⟨k, hk⟩ := hop
  have h1 : (setCS .low s).dev.lost = false := by
    rcases hk with ⟨rfl, _⟩ | ⟨rfl, _⟩ <;> exact h0
  obtain ⟨hc, hl⟩ := high_of_setCS_low h1
  rw [headerEnd_dev hc hl hk] at h ⊢
  by_cases hm : ({ s.dev with phase := .header k [addrByte1 a, addrByte2 a] } : Device).mode.isSome = true ∧
      a.toNat < s.cfg.deviceCapacity
  · exact ⟨hc, hl, k, hk, hm.1, hm.2, Device.loadCounter_ok hm.1 hm.2⟩
  · rw [Device.loadCounter_undefined hm] at h
    cases h

/-- A device specified after a status frame was specified and on a high line. -/
theorem status_specified {opc d : Byte} {s : State} (h : (setCS .high (statusBytes opc d s)).dev.lost = false) :
    s.csN = .high ∧ s.dev.lost = false := by
  apply high_of_setCS_low
  cases hc : (setCS .low s).dev.lost
  · rfl
  · rw [statusBytes_lost hc] at h
    cases h

/-! ### The events of a frame -/

/-- The two bytes of a status frame as a run. -/
theorem runBytes_status (opc d : Byte) (s : State) : runBytes [opc, d] (setCS .low s) = statusBytes opc d s := rfl

/-- The events of a header (R47): every byte received in it carries no data, so it is a free value (R45), whatever the
device. -/
theorem headerEnd_trace_free (op : Operation) (a : WireAddr) (s : State) : (headerEnd op a s).trace =
    s.trace ++ [.cs .low, .t op.opcode (Config.freeRx s.draws), .t (addrByte1 a) (Config.freeRx (s.draws + 1)),
      .t (addrByte2 a) (Config.freeRx (s.draws + 2)), .t (addrByte3 a) (Config.freeRx (s.draws + 3))] := by
  rw [headerEnd_eq]
  simp only [afterTransfer_trace, headerStart_trace, List.append_assoc, List.cons_append, List.nil_append]
  cases hl : (headerStart op s).dev.lost
  · obtain ⟨k, hk⟩ : ∃ k : BurstKind, (op = .read ∧ k = .read) ∨ (op = .write ∧ k = .write) := by
      cases op
      · cases hl
      · cases hl
      · exact ⟨.read, by simp⟩
      · exact ⟨.write, by simp⟩
    have he : (headerStart op s).dev = (setCS .low s).dev := by rcases hk with ⟨rfl, _⟩ | ⟨rfl, _⟩ <;> rfl
    obtain ⟨hc, hd⟩ := high_of_setCS_low (he ▸ hl)
    rw [setCS_low_dev hc hd] at he
    have e1 : devAfter op.opcode (headerStart op s) = { s.dev with phase := .header k [] } := by
      rw [devAfter, he, Device.exchange_opened (d := { s.dev with phase := .opened }) hd rfl]
      rcases hk with ⟨rfl, rfl⟩ | ⟨rfl, rfl⟩ <;> simp [Operation.opcode]
    have e2 : devAfter (addrByte1 a) (afterTransfer op.opcode (headerStart op s)) =
        { s.dev with phase := .header k [addrByte1 a] } := by
      rw [devAfter, afterTransfer_dev, e1, Device.exchange_header (d := { s.dev with phase := .header k [] }) hd rfl]
      rfl
    have e3 : devAfter (addrByte2 a) (afterTransfer (addrByte1 a) (afterTransfer op.opcode (headerStart op s))) =
        { s.dev with phase := .header k [addrByte1 a, addrByte2 a] } := by
      rw [devAfter, afterTransfer_dev, e2,
        Device.exchange_header (d := { s.dev with phase := .header k [addrByte1 a] }) hd rfl]
      rfl
    simp only [rxOf, afterTransfer_dev, e1, e2, e3, he]
    rw [Device.exchange_opened (d := { s.dev with phase := .opened }) hd rfl,
      Device.exchange_header (d := { s.dev with phase := .header k [] }) hd rfl,
      Device.exchange_header (d := { s.dev with phase := .header k [addrByte1 a] }) hd rfl,
      Device.exchange_header (d := { s.dev with phase := .header k [addrByte1 a, addrByte2 a] }) hd rfl]
    simp
  · have l1 : (devAfter op.opcode (headerStart op s)).lost = true := devAfter_of_lost hl
    have l2 : (devAfter (addrByte1 a) (afterTransfer op.opcode (headerStart op s))).lost = true := devAfter_of_lost l1
    have l3 : (devAfter (addrByte2 a) (afterTransfer (addrByte1 a) (afterTransfer op.opcode (headerStart op s)))).lost =
      true := devAfter_of_lost l2
    simp [rxOf, Device.exchange_of_lost hl, Device.exchange_of_lost l1, Device.exchange_of_lost l2,
      Device.exchange_of_lost l3]

/-- The events of a header, whatever was received. -/
theorem headerEnd_trace (op : Operation) (a : WireAddr) (s : State) : ∃ r1 r2 r3 r4, (headerEnd op a s).trace =
    s.trace ++ [.cs .low, .t op.opcode r1, .t (addrByte1 a) r2, .t (addrByte2 a) r3, .t (addrByte3 a) r4] :=
  ⟨_, _, _, _, headerEnd_trace_free op a s⟩

/-! ### The invariant's memory part through an instruction -/

theorem memOk_setCS {l : Level} {cap : Nat} {s : State} (h : s.dev.memOk cap) : (setCS l s).dev.memOk cap := by
  rw [setCS_dev]
  cases s.csN <;> cases l <;> simp only [chipSelectAtDevice]
  · exact Device.memOk_lose _ _
  · exact Device.memOk_deselect h
  · exact Device.memOk_select h
  · exact Device.memOk_deselect h

theorem memOk_contractOfAddress {addr : ReqAddr} {cap : Nat} {s : State} (h : s.dev.memOk cap) :
    (contractOfAddress addr s).dev.memOk cap := by
  unfold contractOfAddress
  split
  · exact h
  · exact Device.memOk_lose _ _

theorem memOk_runBytes {bs : List Byte} {s : State} (h : s.dev.memOk s.cfg.deviceCapacity) :
    (runBytes bs s).dev.memOk s.cfg.deviceCapacity := by
  refine (runBytes_induct (P := fun u => u.cfg = s.cfg ∧ u.dev.memOk s.cfg.deviceCapacity) ?_ bs s ⟨rfl, h⟩).2
  rintro tx u ⟨hc, hm⟩
  refine ⟨hc, ?_⟩
  have := Device.memOk_exchange (cap := s.cfg.deviceCapacity) (free := Config.freeRx u.draws)
    (freeCtr := Config.freeCtr u.draws) (tx := tx) hm
  simpa only [afterTransfer_dev, devAfter, hc] using this

theorem memOk_plan_start {i : Instr} {s start : State} {bytes : List Byte} {close : Byte → State → State} {cap : Nat}
    (h : plan i s = .run start bytes close) (hm : s.dev.memOk cap) : start.dev.memOk cap := by
  have hh : ∀ op {u : State}, u.dev.memOk cap → (headerStart op u).dev.memOk cap := by
    intro op u hu
    cases op
    · exact Device.memOk_lose _ _
    · exact Device.memOk_lose _ _
    · exact memOk_setCS hu
    · exact memOk_setCS hu
  cases i <;> simp only [plan] at h <;> cases h <;>
    first | exact hh _ (memOk_contractOfAddress hm) | exact hh _ hm | exact memOk_setCS hm | exact hm

/-- The counter's part of the invariant at a specified device: no burst, or the data phase with a value (R19, R73). -/
theorem Device.counterWf_specified {cap : Nat} {d : Device} (hl : d.lost = false) : d.counterWf cap = true ↔
    (d.phase = .idle ∧ d.ctr = none) ∨ ∃ k first a, d.phase = .data k first ∧ d.ctr = some a ∧ d.mode.isSome = true ∧
      (a ≤ cap ∨ (first = false ∧ d.mode ≠ some .sequential)) := by
  unfold Device.counterWf
  cases d.phase <;> cases d.ctr <;> simp [hl]
  rename_i first _
  cases first <;> simp

/-- The counter's part of the invariant at an unspecified device. -/
theorem Device.counterWf_lost {cap : Nat} {d : Device} (hl : d.lost = true) :
    d.counterWf cap = true ↔ d.phase = .idle := by
  simp [Device.counterWf, hl]

/-- A data byte at its address keeps the counter's part, whatever the free value is (R28 to R30). -/
theorem Device.counterWf_advance {cap a freeCtr : Nat} {d : Device} {k : BurstKind} (hl : d.lost = false)
    (hm : d.mode.isSome = true) (ha : a < cap) : (d.advance freeCtr k a).counterWf cap = true := by
  refine (Device.counterWf_specified (d := d.advance freeCtr k a) hl).2 (.inr ⟨k, false, _, rfl, rfl, hm, ?_⟩)
  have hmode : (d.advance freeCtr k a).mode = d.mode := rfl
  by_cases hs : d.mode = some .sequential
  · exact .inl (by rw [if_pos hs]; exact ha)
  · exact .inr ⟨rfl, by rw [hmode]; exact hs⟩

/-- The invariant, clause by clause. -/
theorem State.inv_iff {s : State} : s.inv = true ↔ s.cfg.wf = true ∧ s.dev.memOk s.cfg.deviceCapacity ∧
    s.dev.counterWf s.cfg.deviceCapacity = true ∧ s.csN = lineAfter .high s.trace ∧
    ((s.fault == .transportError) = hasBusFault s.trace) ∧ (s.csN = .low ∨ s.dev.phase = .idle) ∧
    (s.fault = .none ∨ s.dev.lost = true) := by
  simp [State.inv, Device.inv, Device.memOk, and_assoc]

end Sys2Proof.Machine
end

