-- ==== Sys2Proof/Tests/Slice0.lean ====
section
/-! SUPPORT. Tests and witnesses. Expected results are those of 95_test_vectors.md (V, P) or written out from the
encoding tables of 30_encoding.md; a witness shows that a statement's hypotheses can be met together. -/

namespace Sys2Proof.Tests

open Sys2Proof Sys2Proof.Machine

/-! ### Small states -/

/-- Right after reset, with this list of answers of the transport. -/
def answering (as : List Answer) : State := { State.reset with answers := as }

/-- Right after reset, a status byte written before. -/
def ready (status : Byte) : State :=
  { State.reset with dev := { State.reset.dev with status := status, statusKnown := true } }

/-- A burst open past its header, counter at `a`, one byte listed in memory. -/
def inBurst (status : Byte) (k : BurstKind) (first : Bool) (a : Nat) (cell : Host.Cell) : State :=
  { State.reset with
    csN := .low
    trace := [.cs .low]
    dev := { State.reset.dev with status := status, statusKnown := true, ctr := some a, mem := [cell],
                                  phase := .data k first } }

/-- A Read burst at `0x20`, where the byte is `0xA7`. -/
def openRead : State := inBurst 0x40 .read false 0x20 (0x20, 0xA7)

/-- After V31: the third transfer of a header met a bus fault. -/
def faulted : State :=
  { State.reset with
    csN := .low
    fault := .transportError
    trace := [.cs .low, .tf 0x23]
    dev := { State.reset.dev with lost := true } }

/-- `SEQ_MODE_CODE = 0x41`. -/
def with41 (s : State) : State := { s with cfg := { s.cfg with seqModeCode := .code41 } }

/-- The next input to take. -/
def told (x : Input) (s : State) : State := { s with inputs := [x] }

/-- The state after an instruction. -/
def after (i : Instr) (s : State) : State :=
  match exec i s with
  | .next t => t
  | .fault _ => s
  | .refused _ => s

/-- The outcome is a next state with a property. -/
def nextWith (o : Host.Outcome State Fault Refusal) (p : State → Bool) : Bool :=
  match o with
  | .next t => p t
  | .fault _ => false
  | .refused _ => false

/-- The bytes sent, the chip-select levels, the line and the faults of a state. -/
def shows (tx : List Byte) (cs : List Level) (line : Level) (fault : FaultRecord) (t : State) : Bool :=
  wireBytes t.trace == tx && csLevels t.trace == cs && t.csN == line && t.fault == fault

/-! ### WellFormed refuses what it checks -/

theorem test_kind5_is_not_kind6To7 : Instr.wellFormed (.reservedKind6To7 0x5) = false := by decide

theorem test_kind8_is_not_kind6To7 : Instr.wellFormed (.reservedKind6To7 0x8) = false := by decide

theorem test_kind7_is_not_kind8ToF : Instr.wellFormed (.reservedKind8ToF 0x7) = false := by decide

/-! ### Decoding words written out from the spec -/

theorem test_decode_sendCmd_V9 : decodeTableWord 48 0x0F00012345FF = some (.sendCmd .write 0x00012345) := by
  decide

theorem test_decode_sendCmd_V7 : decodeTableWord 48 0x000000001000 = some (.sendCmd .readStatus 0x10) := by
  decide

theorem test_decode_sendCmd_V8 : decodeTableWord 48 0x040040000000 = some (.sendCmd .writeStatus 0x400000) := by
  decide

theorem test_decode_sendCmd_V6 : decodeTableWord 48 0x08FFFFFFFF00 = some (.sendCmd .read 0xFFFFFFFF) := by
  decide

theorem test_decode_xfer_V13 : decodeTableWord 48 0x1000000000FF = some (.xfer 0xFF) := by decide

theorem test_decode_endCmd_V18 : decodeTableWord 48 0x2FFFFFFFFFFF = some .endCmd := by decide

theorem test_decode_setModeByte_V19 : decodeTableWord 48 0x300000000000 = some .setModeByte := by decide

theorem test_decode_setModeSequential_V20 : decodeTableWord 48 0x310000000000 = some .setModeSequential := by
  decide

theorem test_decode_setModePage_V22 : decodeTableWord 48 0x320000000000 = some .setModePage := by decide

theorem test_decode_setModeReserved_V23 : decodeTableWord 48 0x330000000000 = some .setModeReserved := by
  decide

theorem test_decode_readStatus_V26 : decodeTableWord 48 0x400000000000 = some .readStatus := by decide

theorem test_decode_reservedKind5_V29 : decodeTableWord 48 0x500000000000 = some .reservedKind5 := by
  decide

theorem test_decode_reservedKind6To7 : decodeTableWord 48 0x700000000000 = some (.reservedKind6To7 0x7) := by
  decide

theorem test_decode_reservedKind8ToF_V30 : decodeTableWord 48 0xF00000000000 = some (.reservedKind8ToF 0xF) := by
  decide

theorem test_decode_wireRead : decodeTableWord 32 0x03012345 = some (.wireRead 0x012345) := by decide

theorem test_decode_wireWrite : decodeTableWord 32 0x0201FFFE = some (.wireWrite 0x01FFFE) := by decide

theorem test_decode_wireWrsr : decodeTableWord 16 0x0180 = some (.wireWrsr 0x80) := by decide

theorem test_decode_wireRdsr : decodeTableWord 16 0x0500 = some (.wireRdsr 0x00) := by decide

theorem test_decode_wireRdsrA : decodeTableWord 32 0x05000010 = some (.wireRdsrA 0x000010) := by decide

theorem test_decode_wireWrsrA : decodeTableWord 32 0x01400000 = some (.wireWrsrA 0x400000) := by decide

theorem test_decode_wireHsread : decodeTableWord 8 0x0B = some .wireHsread := by decide

theorem test_decode_wireRstio : decodeTableWord 8 0xFF = some .wireRstio := by decide

/-- `0x04` is no opcode (R49, R53). -/
theorem test_decode_unknown_opcode : decodeTableWord 32 0x04000000 = none := by decide

/-- The first word the host would place for every row that has a step, run as the first instruction after reset. -/
theorem test_every_row_runs_after_reset :
    ([(48, 0x000000000000), (48, 0x100000000000), (48, 0x200000000000), (48, 0x300000000000),
      (48, 0x310000000000), (48, 0x320000000000), (48, 0x330000000000), (48, 0x400000000000),
      (48, 0x500000000000), (48, 0x600000000000), (48, 0x800000000000), (32, 0x03000000), (32, 0x02000000),
      (16, 0x0100), (16, 0x0500), (32, 0x05000000), (32, 0x01000000)] :
      List (Nat × Nat)).all (fun p => nextWith (step (State.reset.withFetchWord p.1 p.2)) fun _ => true) = true := by
  decide

/-- R53, D16: the two reserved opcodes have no step. -/
theorem test_reserved_opcodes_are_refused :
    step (State.reset.withFetchWord 8 0x0B) = .refused .opcodeNeverEmitted ∧
    step (State.reset.withFetchWord 8 0xFF) = .refused .opcodeNeverEmitted := ⟨rfl, rfl⟩

/-! ### Single steps -/

theorem test_sendCmd_V2 : nextWith (exec (.sendCmd .write 0x00012345) State.reset)
    (shows [0x02, 0x01, 0x23, 0x45] [.low] .low .none) = true := by decide

theorem test_sendCmd_V6b : nextWith (exec (.sendCmd .read 0xAB123456) State.reset)
    (shows [0x03, 0x12, 0x34, 0x56] [.low] .low .none) = true := by decide

/-- P6, the wire: bit 24 of the address is dropped. R66, R93: the address is out of the contract, so nothing is said of
the device. -/
theorem test_sendCmd_P6 : nextWith (exec (.sendCmd .write 0x01000010) (ready 0x00))
    (fun t => shows [0x02, 0x00, 0x00, 0x10] [.low] .low .none t && t.dev.lost) = true := by decide

/-- V12: the device outputs the byte at the counter, `0xA7`. -/
theorem test_xfer_V12 : nextWith (exec (.xfer 0x00) openRead)
    (fun t => t.responses == [⟨.ok, 0xA7⟩] && t.csN == .low && t.dev.ctr == some 0x21) = true := by decide

/-- P7, last byte of the array: stored, and a byte more is unspecified (U4). -/
theorem test_xfer_P7 : nextWith (exec (.xfer 0x02) (inBurst 0x40 .write false 0x1FFFF (0x1FFFE, 0x01)))
    (fun t => t.dev.mem == [(0x1FFFE, 0x01), (0x1FFFF, 0x02)] &&
      nextWith (exec (.xfer 0x03) t) fun u => u.dev.lost && u.fault == .none) = true := by decide

/-- V15: a transfer with chip-select high is made all the same. -/
theorem test_xfer_V15 : nextWith (exec (.xfer 0x5A) State.reset) (shows [0x5A] [] .high .none) = true := by
  decide

theorem test_endCmd_V17 : nextWith (exec .endCmd State.reset) (shows [] [.high] .high .none) = true := by
  decide

theorem test_setModeByte_V19 : nextWith (exec .setModeByte State.reset)
    (fun t => shows [0x01, 0x00] [.low, .high] .high .none t && t.dev.status == 0x00) = true := by decide

theorem test_setModeSequential_V20 : nextWith (exec .setModeSequential State.reset)
    (fun t => shows [0x01, 0x40] [.low, .high] .high .none t && t.dev.status == 0x40) = true := by decide

theorem test_setModeSequential_V21 : nextWith (exec .setModeSequential (with41 State.reset))
    (fun t => shows [0x01, 0x41] [.low, .high] .high .none t && t.dev.status == 0x41) = true := by decide

theorem test_setModePage_V22 : nextWith (exec .setModePage State.reset)
    (fun t => shows [0x01, 0x80] [.low, .high] .high .none t && t.dev.status == 0x80) = true := by decide

theorem test_setModeReserved_V23 : exec .setModeReserved State.reset =
    .next { State.reset with responses := [⟨.illegalRequest, 0⟩] } := rfl

theorem test_readStatus_V28 : nextWith (exec .readStatus State.reset)
    (shows [0x05, 0x00] [.low, .high] .high .none) = true := by decide

/-- V29: the response word is `0x200`. -/
theorem test_reservedKind5_V29 : nextWith (exec .reservedKind5 State.reset)
    (fun t => t.responses.map Response.word == [0x200] && t.trace == []) = true := by decide

theorem test_reservedKind8ToF_V30 : nextWith (exec (.reservedKind8ToF 0xF) State.reset)
    (fun t => t.responses.map Response.word == [0x200] && t.fault == .none) = true := by decide

theorem test_busFault_V31 : nextWith (exec (.sendCmd .write 0x012345) (answering [.ok, .ok, .busFault]))
    (fun t => shows [0x02, 0x01, 0x23] [.low] .low .transportError t &&
      t.trace.getLast? == some (.tf 0x23) && t.responses.map Response.word == [0x100]) = true := by decide

theorem test_busFault_V34 : nextWith (exec .readStatus (answering [.ok, .busFault]))
    (fun t => shows [0x05, 0x00] [.low] .low .transportError t && t.responses.map Response.word == [0x100]) =
      true := by decide

theorem test_busFault_V36 : exec .endCmd faulted = .next { faulted with responses := [⟨.transportError, 0⟩] } := rfl

/-- V37: the sticky fault is checked before the reserved kind. -/
theorem test_busFault_V37 : nextWith (exec .reservedKind5 faulted)
    (fun t => t.responses.map Response.word == [0x100]) = true := by decide

theorem test_reset_V38 : nextWith (step (told .framerReset faulted))
    (fun t => t.trace == [] && t.csN == .high && t.fault == .none && t.responses == []) = true := by decide

/-- R88, R89: a reset that cuts a Read burst's transfer leaves memory and status as they were. -/
theorem test_reset_during_transfer :
    nextWith (exec (.xfer 0x00) { openRead with answers := [.reset] })
      (fun t => t.dev.mem == [(0x20, 0xA7)] && t.dev.status == 0x40 && t.csN == .high && t.responses == []) =
        true := by decide

/-- R9, R71, R35, R89: a reset that cuts `READ_STATUS` past its opcode leaves memory and status as they were. -/
theorem test_reset_during_readStatus :
    nextWith (exec .readStatus { ready 0x40 with answers := [.ok, .reset] })
      (fun t => t.dev.mem == (ready 0x40).dev.mem && t.dev.epoch == 0 && t.dev.status == 0x40 && t.dev.statusKnown &&
        t.csN == .high && t.trace == [] && t.responses == []) = true := by decide

/-- R9, R26, R89: a reset that cuts `SET_MODE` past its opcode leaves memory as it was. -/
theorem test_reset_during_setMode :
    nextWith (exec .setModeByte
        { ready 0x40 with answers := [.ok, .reset], dev := { (ready 0x40).dev with mem := [(0x20, 0xA7)] } })
      (fun t => t.dev.mem == [(0x20, 0xA7)] && t.dev.epoch == 0 && t.csN == .high && t.responses == []) = true := by
  decide

theorem test_stall : exec (.xfer 0x11) (answering [.stall]) = .fault .stalledTransfer := rfl

/-- P4: a command inside an open burst is sent as any other, and the device is unspecified. -/
theorem test_misuse_P4 : nextWith (exec (.sendCmd .read 0x20) (inBurst 0x40 .write false 0x21 (0x20, 0x11)))
    (fun t => wireBytes t.trace == [0x03, 0x00, 0x00, 0x20] && t.fault == .none && t.dev.lost) = true := by
  decide

/-- R25, R27: the wire row's own address is in range, so the counter is loaded. -/
theorem test_wireWrite : nextWith (exec (.wireWrite 0x000010) (ready 0x00))
    (fun t => shows [0x02, 0x00, 0x00, 0x10] [.low] .low .none t && t.dev.ctr == some 0x10 && t.responses == []) =
      true := by decide

theorem test_wireWrsr : nextWith (exec (.wireWrsr 0x80) State.reset)
    (fun t => shows [0x01, 0x80] [.low, .high] .high .none t && t.responses == []) = true := by decide

/-- A frame that is no row is refused by name. -/
theorem test_not_a_row : step (told (.present (.frame [0x04])) State.reset) = .refused .notATableRow := rfl

/-- With no input the machine waits. -/
theorem test_idle : step State.reset = .next State.reset := rfl

/-- R60: the textual form. -/
theorem test_requestText : requestText (.sendCmd .write 0x00012345) = some "SEND_CMD Write, 0x00012345" := by
  decide

theorem test_reset_memory_wf : Memory.wf State.reset.dev.mem = true := by decide

/-! ### Witnesses: states and operands that meet a statement's hypotheses, all of them together -/

/-- The data phase of an addressed burst at a boundary address of the array, in the invariant. -/
def boundary (status : Byte) (k : BurstKind) (first : Bool) (a : Nat) : State := inBurst status k first a (0x1FFFF, 0x11)

theorem witness_DecodeEncodeAgree : Instr.wellFormed (.reservedKind6To7 0x7) = true ∧
    Instr.wellFormed (.reservedKind8ToF 0x8) = true ∧ Instr.wellFormed (.sendCmd .write 0xFFFFFFFF) = true := by decide

theorem witness_FrameHasOneReading : decode (.frame [0x03, 0x01, 0x23, 0x45]) = .ok (.wireRead 0x012345) ∧
    decode (.frame [0x01, 0xFF]) = .ok (.wireWrsr 0xFF) ∧ decode (.frame [0x0B]) = .ok .wireHsread := ⟨rfl, rfl, rfl⟩

theorem witness_ReservedKindsDecodeToReservedRows : 5#4 ≤ 5#4 ∧ 5#4 ≤ 6#4 ∧ 5#4 ≤ 8#4 ∧ 5#4 ≤ 15#4 := by decide

theorem witness_OperandCodesAreTheTable : State.reset.fault = .none := rfl

theorem witness_StepRunsDecodedInstruction :
    (told (.present (.request 0x10000000005A)) State.reset).inputs = .present (.request 0x10000000005A) :: [] ∧
    decode (.request 0x10000000005A) = .ok (.xfer 0x5A) ∧ (Instr.xfer 0x5A).wellFormed = true := ⟨rfl, rfl, rfl⟩

theorem witness_FramerResetTakesResetValues :
    (told .framerReset (boundary 0x40 .write false 0x20000)).inputs = .framerReset :: [] ∧
    (told .framerReset (boundary 0x40 .write false 0x20000)).inv = true ∧
    (told .framerReset (boundary 0x40 .write false 0x20000)).dev.lost = false := by decide

theorem witness_PowerCycleForgetsTheDevice :
    (told .devicePowerCycle State.reset).inputs = .devicePowerCycle :: [] := rfl

/-- The reset at the first and the last transfer of the frames, and at a data byte of a Write and of a Read burst at the
array's last address. -/
theorem witness_ResetDuringTransferAbandonsRequest :
    (Instr.sendCmd .write 0x20).isRequest = true ∧ 0 < transfersOf (.sendCmd .write 0x20) ∧
    3 < transfersOf (.sendCmd .write 0x20) ∧ 1 < transfersOf .setModePage ∧ 1 < transfersOf .readStatus ∧
    (answering [.reset]).fault = .none ∧ (answering [.reset]).answers = List.replicate 0 .ok ++ .reset :: [] ∧
    (answering [.ok, .ok, .ok, .reset, .ok]).answers = List.replicate 3 .ok ++ .reset :: [.ok] ∧
    (answering [.ok, .reset]).answers = List.replicate 1 .ok ++ .reset :: [] ∧
    0 < transfersOf (.xfer 0x22) ∧
    { boundary 0x40 .write false 0x1FFFF with answers := [.reset] }.answers = List.replicate 0 .ok ++ .reset :: [] ∧
    (boundary 0x40 .write false 0x1FFFF).dev.lost = false ∧
    (boundary 0x40 .write false 0x1FFFF).dev.dataAddress 0x20000 = some 0x1FFFF ∧
    (boundary 0x40 .write false 0x1FFFF).dev.storeAddress 0x20000 ≠ some 0x1FFFE ∧
    (boundary 0x40 .read false 0x1FFFF).dev.dataAddress 0x20000 = some 0x1FFFF ∧
    (boundary 0x40 .read false 0x1FFFF).dev.storeAddress 0x20000 ≠ some 0x1FFFF ∧
    Instr.readStatus ∈ [Instr.setModeByte, .setModeSequential, .setModePage, .readStatus] ∧
    Instr.setModePage ∈ [Instr.setModeByte, .setModeSequential, .setModePage, .readStatus] ∧
    (answering [.ok, .reset]).dev.lost = false ∧ (answering [.ok, .reset]).csN = .high := by decide

theorem witness_SendCmdSendsHeader :
    (answering [.ok, .ok, .ok, .ok, .busFault]).fault = .none ∧
    (answering [.ok, .ok, .ok, .ok, .busFault]).answersOk 4 = true := by decide

/-- The clause in the contract, at the last address; the other clause, one above it, and where the wire address alone is
in range. -/
theorem witness_SendCmdLoadsCounterOrLosesDevice :
    (ready 0x40).inv = true ∧ (ready 0x40).fault = .none ∧ (ready 0x40).answersOk 4 = true ∧
    exec (.sendCmd .write 0x1FFFF) (ready 0x40) = .next (after (.sendCmd .write 0x1FFFF) (ready 0x40)) ∧
    (ready 0x40).dev.lost = false ∧ (ready 0x40).csN = .high ∧ (ready 0x40).dev.mode.isSome = true ∧
    (0x1FFFF : ReqAddr).toNat < (ready 0x40).cfg.deviceCapacity ∧
    exec (.sendCmd .write 0x20000) (ready 0x40) = .next (after (.sendCmd .write 0x20000) (ready 0x40)) ∧
    ¬ (0x20000 : ReqAddr).toNat < (ready 0x40).cfg.deviceCapacity ∧
    exec (.sendCmd .write 0x01000010) (ready 0x40) = .next (after (.sendCmd .write 0x01000010) (ready 0x40)) ∧
    ¬ (0x01000010 : ReqAddr).toNat < (ready 0x40).cfg.deviceCapacity ∧
    (wireAddr 0x01000010).toNat < (ready 0x40).cfg.deviceCapacity :=
  ⟨by decide, rfl, rfl, rfl, rfl, rfl, by decide, by decide, rfl, by decide, rfl, by decide, by decide⟩

theorem witness_XferTransfersOneByte :
    (answering [.ok, .stall]).fault = .none ∧ (answering [.ok, .stall]).answersOk 1 = true := by decide

theorem witness_EndCmdRaisesChipSelect : (boundary 0x40 .read true 0).fault = .none := rfl

theorem witness_SetModeSendsStatusWrite :
    (Instr.setModePage, TransferMode.page) ∈
      [(Instr.setModeByte, TransferMode.byte), (.setModeSequential, .sequential), (.setModePage, .page)] ∧
    State.reset.fault = .none ∧ State.reset.answersOk 2 = true := by decide

theorem witness_SetModeReplacesDeviceStatus :
    (Instr.setModeSequential, TransferMode.sequential) ∈
      [(Instr.setModeByte, TransferMode.byte), (.setModeSequential, .sequential), (.setModePage, .page)] ∧
    State.reset.inv = true ∧ State.reset.safe = true ∧ State.reset.csN = .high ∧ State.reset.answersOk 4 = true ∧
    exec .setModeSequential State.reset = .next (after .setModeSequential State.reset) :=
  ⟨by decide, by decide, rfl, rfl, rfl, rfl⟩

theorem witness_ReadStatusSendsStatusRead : State.reset.fault = .none ∧ State.reset.answersOk 2 = true := by decide

theorem witness_ReadStatusReturnsModeBits :
    (ready 0x80).inv = true ∧ (ready 0x80).safe = true ∧ (ready 0x80).csN = .high ∧ (ready 0x80).answersOk 2 = true ∧
    exec .readStatus (ready 0x80) = .next (after .readStatus (ready 0x80)) :=
  ⟨by decide, rfl, rfl, rfl, rfl⟩

theorem witness_ReservedRequestsAreIllegal : State.reset.fault = .none ∧
    Instr.reservedKind8ToF 0xF ∈ [Instr.setModeReserved, .reservedKind5, .reservedKind6To7 0xF, .reservedKind8ToF 0xF] ∧
    5#4 ≤ reqKind 0x500000000000 ∧ reqKind 0x330000000000 = 3#4 ∧ reqMode 0x330000000000 = 3#2 := by decide

theorem witness_FaultedStateRefusesEverything :
    faulted.fault = .transportError ∧ Instr.endCmd.isRequest = true ∧ faulted.inv = true := by decide

/-- The header at its first and its last transfer, the byte, the status frame at its last transfer. -/
theorem witness_BusFaultEndsTheRequest :
    (answering [.busFault]).fault = .none ∧ (answering [.busFault]).answers = List.replicate 0 .ok ++ .busFault :: [] ∧
    (answering [.ok, .ok, .ok, .busFault]).answers = List.replicate 3 .ok ++ .busFault :: [] ∧ (3 : Nat) < 4 ∧
    (answering [.ok, .busFault]).answers = List.replicate 1 .ok ++ .busFault :: [] ∧ (1 : Nat) < 2 ∧
    (Instr.readStatus, (0x05 : Byte), (0x00 : Byte)) ∈ [(Instr.setModeByte, 0x01, modeCode State.reset.cfg .byte),
      (.setModeSequential, 0x01, modeCode State.reset.cfg .sequential), (.setModePage, 0x01, modeCode State.reset.cfg .page),
      (.readStatus, 0x05, 0x00)] := by decide

/-- The stall at the first and at the last transfer of a header, and at the last of a status frame. -/
theorem witness_StalledTransferHangs :
    (answering [.stall]).fault = .none ∧ (answering [.stall]).answers = List.replicate 0 .ok ++ .stall :: [] ∧
    0 < transfersOf (.sendCmd .read 0x20) ∧
    (answering [.ok, .ok, .ok, .stall]).answers = List.replicate 3 .ok ++ .stall :: [] ∧
    3 < transfersOf (.wireWrsrA 0xFFFFFF) ∧
    (answering [.ok, .stall]).answers = List.replicate 1 .ok ++ .stall :: [] ∧ 1 < transfersOf .readStatus ∧
    .stall ∉ (answering [.ok, .busFault]).answers ∧ Instr.readStatus ≠ .wireHsread ∧ Instr.readStatus ≠ .wireRstio := by
  decide

theorem witness_FaultRecordIsSticky :
    (Instr.xfer 0x11).isRequest = true ∧ .reset ∉ (answering [.busFault]).answers ∧
    exec (.xfer 0x11) (answering [.busFault]) = .next (after (.xfer 0x11) (answering [.busFault])) ∧
    (answering [.busFault]).fault = .none ∧ Instr.endCmd.isRequest = true ∧
    exec .endCmd faulted = .next (after .endCmd faulted) ∧
    faulted.fault = .transportError := ⟨rfl, by decide, rfl, rfl, rfl, rfl, rfl⟩

theorem witness_WireRowsKeepTheFaultRecord :
    (Instr.wireRdsr 0x00).isRequest = false ∧ Instr.wireRdsr 0x00 ≠ .wireHsread ∧ Instr.wireRdsr 0x00 ≠ .wireRstio ∧
    faulted.fault = .transportError ∧ (answering [.ok, .busFault]).fault = .none ∧
    .reset ∉ (answering [.ok, .busFault]).answers ∧
    exec (.wireRdsr 0x00) (answering [.ok, .busFault]) =
      .next (after (.wireRdsr 0x00) (answering [.ok, .busFault])) :=
  ⟨rfl, by decide, by decide, rfl, rfl, by decide, rfl⟩

theorem witness_WireHeaderFramesComplete :
    (Instr.wireWrsrA 0xFFFFFF, (0x01 : Byte)) ∈ [(Instr.wireRead 0xFFFFFF, (0x03 : Byte)), (.wireWrite 0xFFFFFF, 0x02),
      (.wireRdsrA 0xFFFFFF, 0x05), (.wireWrsrA 0xFFFFFF, 0x01)] ∧
    State.reset.fault = .none ∧ State.reset.answersOk 4 = true := by decide

theorem witness_WireStatusFramesComplete :
    (Instr.wireWrsr 0xC0, (0x01 : Byte)) ∈ [(Instr.wireWrsr 0xC0, (0x01 : Byte)), (.wireRdsr 0xC0, 0x05)] ∧
    State.reset.fault = .none ∧ State.reset.answersOk 2 = true ∧ State.reset.inv = true ∧
    State.reset.dev.lost = false ∧ State.reset.csN = .high := by decide

theorem witness_ReservedOpcodesHaveNoStep :
    (told (.present (.frame [0x0B])) State.reset).inputs = .present (.frame [0x0B]) :: [] ∧
    (told (.present (.frame [0xFF])) faulted).inputs = .present (.frame [0xFF]) :: [] := ⟨rfl, rfl⟩

/-- An address in the contract, the last one, and one out of it. -/
theorem witness_SendCmdIsItsWireRow : State.reset.fault = .none ∧ State.reset.answersOk 4 = true ∧
    exec (.wireRead ((0x1FFFF : ReqAddr).setWidth 24)) State.reset =
      .next (after (.wireRead ((0x1FFFF : ReqAddr).setWidth 24)) State.reset) ∧
    (0x1FFFF : ReqAddr).toNat < State.reset.cfg.deviceCapacity ∧
    exec (.wireRead ((0xAB123456 : ReqAddr).setWidth 24)) State.reset =
      .next (after (.wireRead ((0xAB123456 : ReqAddr).setWidth 24)) State.reset) ∧
    ¬ (0xAB123456 : ReqAddr).toNat < State.reset.cfg.deviceCapacity := ⟨rfl, rfl, rfl, by decide, rfl, by decide⟩

theorem witness_OnlyTheFourOpcodesAreEmitted :
    (told (.present (.request 0x400000000000)) State.reset).trace.getLast? ≠ some (.cs .low) ∧
    (∀ b ∈ opcodesOf (told (.present (.request 0x400000000000)) State.reset).trace,
      b ∈ ([0x01, 0x02, 0x03, 0x05] : List Byte)) ∧
    step (told (.present (.request 0x400000000000)) State.reset) = .next (after .readStatus State.reset) :=
  ⟨by decide, by decide, rfl⟩

/-- A Write burst at the array's last address, and a Read burst. -/
theorem witness_XferFrame :
    (boundary 0x40 .write false 0x1FFFF).answersOk 1 = true ∧
    exec (.xfer 0x22) (boundary 0x40 .write false 0x1FFFF) =
      .next (after (.xfer 0x22) (boundary 0x40 .write false 0x1FFFF)) ∧
    (boundary 0x40 .write false 0x1FFFF).fault = .none ∧
    (after (.xfer 0x22) (boundary 0x40 .write false 0x1FFFF)).dev.lost = false ∧
    (boundary 0x40 .write false 0x1FFFF).inv = true ∧
    (boundary 0x40 .write false 0x1FFFF).dev.storeAddress 0x20000 = some 0x1FFFF ∧
    (after (.xfer 0x22) (boundary 0x40 .read false 0x1FFFF)).dev.lost = false ∧
    (boundary 0x40 .read false 0x1FFFF).dev.storeAddress 0x20000 = none :=
  ⟨rfl, rfl, rfl, by decide, by decide, by decide, by decide, by decide⟩

theorem witness_NonStoringFrame :
    (∀ d, Instr.readStatus ≠ .xfer d) ∧ (ready 0x40).answersOk 4 = true ∧
    exec .readStatus (ready 0x40) = .next (after .readStatus (ready 0x40)) ∧
    (after .readStatus (ready 0x40)).dev.lost = false ∧
    Instr.readStatus ∉ [Instr.setModeByte, .setModeSequential, .setModePage] ∧
    (∀ c, Instr.readStatus ≠ .wireWrsr c) := ⟨by simp, rfl, rfl, by decide, by decide, by simp⟩

theorem witness_TraceOnlyGrows :
    .reset ∉ (told (.present (.request 0x10000000005A)) State.reset).answers ∧
    (told (.present (.request 0x10000000005A)) State.reset).inputs.head? ≠ some .framerReset ∧
    step (told (.present (.request 0x10000000005A)) State.reset) = .next (after (.xfer 0x5A) State.reset) :=
  ⟨by decide, by decide, rfl⟩

theorem witness_EveryRequestHasOneResponse :
    (Instr.xfer 0x5A).isRequest = true ∧ .reset ∉ State.reset.answers ∧
    exec (.xfer 0x5A) State.reset = .next (after (.xfer 0x5A) State.reset) ∧
    exec .reservedKind5 State.reset = .next (after .reservedKind5 State.reset) := ⟨rfl, by decide, rfl, rfl⟩

/-- The first data byte in Byte mode, and a later one in Sequential mode, at the array's last address. -/
theorem witness_WriteBurstByteIsStored :
    (boundary 0x00 .write true 0x1FFFF).safe = true ∧ (boundary 0x00 .write true 0x1FFFF).answersOk 1 = true ∧
    (boundary 0x00 .write true 0x1FFFF).dev.phase = .data .write true ∧
    (boundary 0x00 .write true 0x1FFFF).dev.ctr = some 0x1FFFF ∧
    0x1FFFF < (boundary 0x00 .write true 0x1FFFF).cfg.deviceCapacity ∧
    (boundary 0x40 .write false 0x1FFFF).dev.phase = .data .write false ∧
    (boundary 0x40 .write false 0x1FFFF).dev.mode = some .sequential := by decide

theorem witness_ReadBurstByteIsReturned :
    (boundary 0x80 .read true 0).safe = true ∧ (boundary 0x80 .read true 0).answersOk 1 = true ∧
    (boundary 0x80 .read true 0).dev.phase = .data .read true ∧ (boundary 0x80 .read true 0).dev.ctr = some 0 ∧
    0 < (boundary 0x80 .read true 0).cfg.deviceCapacity ∧
    (boundary 0x41 .read false 0x1FFFF).dev.mode = some .sequential := by decide

/-- Each of the three cases: the line high; a later byte in Byte mode; the end of the array. -/
theorem witness_UndefinedDataByteLosesDevice :
    State.reset.inv = true ∧ State.reset.fault = .none ∧ State.reset.answersOk 1 = true ∧
    exec (.xfer 0x5A) State.reset = .next (after (.xfer 0x5A) State.reset) ∧ State.reset.csN = .high ∧
    (boundary 0x00 .read false 1).inv = true ∧ (boundary 0x00 .read false 1).dev.phase = .data .read false ∧
    (boundary 0x00 .read false 1).dev.ctr = some 1 ∧ (boundary 0x00 .read false 1).dev.mode ≠ some .sequential ∧
    exec (.xfer 0x5A) (boundary 0x00 .read false 1) = .next (after (.xfer 0x5A) (boundary 0x00 .read false 1)) ∧
    (boundary 0x40 .write false 0x20000).inv = true ∧
    (boundary 0x40 .write false 0x20000).dev.ctr = some (boundary 0x40 .write false 0x20000).cfg.deviceCapacity ∧
    exec (.xfer 0x5A) (boundary 0x40 .write false 0x20000) =
      .next (after (.xfer 0x5A) (boundary 0x40 .write false 0x20000)) :=
  ⟨by decide, rfl, rfl, rfl, rfl, by decide, rfl, rfl, by decide, rfl, by decide, rfl,
    rfl⟩

theorem witness_MisuseLosesDevice :
    startsItem (.sendCmd .read 0x20) = true ∧ (boundary 0x40 .write false 0x21).fault = .none ∧
    (boundary 0x40 .write false 0x21).answersOk 4 = true ∧ (boundary 0x40 .write false 0x21).csN = .low ∧
    exec (.sendCmd .read 0x20) (boundary 0x40 .write false 0x21) =
      .next (after (.sendCmd .read 0x20) (boundary 0x40 .write false 0x21)) ∧
    (after (.xfer 0x5A) State.reset).dev.lost = true ∧
    exec .readStatus (after (.xfer 0x5A) State.reset) =
      .next (after .readStatus (after (.xfer 0x5A) State.reset)) := ⟨rfl, rfl, rfl, rfl, rfl, rfl, rfl⟩

theorem witness_EndCmdEndsTheBurst :
    (boundary 0x40 .write false 0x20000).inv = true ∧ (boundary 0x40 .write false 0x20000).safe = true ∧
    exec .endCmd (boundary 0x40 .write false 0x20000) = .next (after .endCmd (boundary 0x40 .write false 0x20000)) ∧
    State.reset.inv = true ∧ State.reset.safe = true ∧ State.reset.csN = .high :=
  ⟨by decide, rfl, rfl, by decide, rfl, rfl⟩

theorem witness_StepKeepsInvariant :
    (told (.present (.request 0x10000000005A)) (boundary 0x40 .write false 0x1FFFF)).inv = true ∧
    step (told (.present (.request 0x10000000005A)) (boundary 0x40 .write false 0x1FFFF)) =
      .next (after (.xfer 0x5A) (boundary 0x40 .write false 0x1FFFF)) := ⟨by decide, rfl⟩

theorem witness_StepKeepsConfiguration :
    step (told .framerReset (with41 faulted)) = .next (framerReset (with41 faulted)) := rfl

/-- Two states with different devices and lines that agree on the rest. -/
theorem witness_FramerIgnoresLineAndDevice : (ready 0x40).SameWire { ready 0x80 with csN := .low } :=
  ⟨rfl, rfl, rfl, rfl, rfl, rfl⟩

/-- P1 up to its first data byte, in progress; P1 whole; a burst under a mode selected before the framer's reset. -/
theorem witness_WellFormedSequenceOnTheWire :
    State.reset.fault = .none ∧ State.reset.csN = .high ∧ State.reset.trace = [] ∧ State.reset.allAnswersOk = true ∧
    Contract.run State.reset.cfg.deviceCapacity (.fresh none) [.setModeByte, .sendCmd .write 0xABCD, .xfer 0x7E] =
      some { mode := some .byte, burst := some (0xABCD, 1) } ∧
    wellFormedSequence State.reset.cfg.deviceCapacity none
      (.setModeByte :: (writeByte 0xABCD 0x7E ++ readByte 0xABCD)) = true ∧
    wellFormedSequence State.reset.cfg.deviceCapacity none (writeByte 0xABCD 0x7E) = false ∧
    wellFormedSequence State.reset.cfg.deviceCapacity (some .byte) (writeByte 0xABCD 0x7E) = true := by decide

/-- From power-on with no mode selected, and with the mode selected before the sequence. -/
theorem witness_ContractKeepsDeviceSpecified :
    State.reset.cfg.wf = true ∧ State.reset.ready = true ∧ State.reset.allAnswersOk = true ∧
    Contract.run State.reset.cfg.deviceCapacity (.fresh none) [.setModeSequential, .sendCmd .write 0x1FFFF, .xfer 0x01] =
      some { mode := some .sequential, burst := some (0x1FFFF, 1) } ∧
    (ready 0x40).cfg.wf = true ∧ (ready 0x40).ready = true ∧ (ready 0x40).allAnswersOk = true ∧
    (ready 0x40).dev.mode = some .sequential ∧
    Contract.run (ready 0x40).cfg.deviceCapacity (.fresh (some .sequential)) [.sendCmd .read 0x1FFFE, .xfer 0, .xfer 0] =
      some { mode := some .sequential, burst := some (0x1FFFE, 2) } := by decide

/-- `SET_MODE Byte`, a framer reset, a write of one byte cut off by a second reset, a power-cycle, `READ_STATUS`. -/
def withResets : List Input :=
  [.present (.request 0x300000000000), .framerReset, .present (.request 0x0C0000ABCD00),
    .present (.request 0x10000000007E), .framerReset, .devicePowerCycle, .present (.request 0x400000000000)]

theorem witness_ContractSurvivesResetsAndPowerCycles :
    { State.reset with inputs := withResets }.cfg.wf = true ∧ { State.reset with inputs := withResets }.ready = true ∧
    { State.reset with inputs := withResets }.allAnswersOk = true ∧
    Contract.runInputs State.reset.cfg.deviceCapacity (.fresh none) withResets = some .start ∧
    Contract.runInputs State.reset.cfg.deviceCapacity (.fresh none) (withResets.take 2) = some (.fresh (some .byte)) ∧
    Contract.runInputs State.reset.cfg.deviceCapacity (.fresh none)
      [.present (.request 0x300000000000), .devicePowerCycle, .present (.request 0x0C0000ABCD00)] = none := by decide

/-- The last two bytes of the array in Sequential mode, and one byte in Byte mode. -/
theorem witness_MemWriteStoresBytes :
    (ready 0x40).cfg.wf = true ∧ (ready 0x40).ready = true ∧ (ready 0x40).allAnswersOk = true ∧
    (ready 0x40).dev.mode.isSome = true ∧ (ready 0x40).dev.mode = some .sequential ∧
    (0x1FFFE : ReqAddr).toNat < (ready 0x40).cfg.deviceCapacity ∧
    (0x1FFFE : ReqAddr).toNat + ([0x01, 0x02] : List Byte).length ≤ (ready 0x40).cfg.deviceCapacity ∧
    (ready 0x00).ready = true ∧ (ready 0x00).dev.mode.isSome = true ∧ ([0x7E] : List Byte).length ≤ 1 := by
  decide

theorem witness_MemReadReturnsBytes :
    (ready 0x40).cfg.wf = true ∧ (ready 0x40).ready = true ∧ (ready 0x40).allAnswersOk = true ∧
    (ready 0x40).dev.mode.isSome = true ∧ (ready 0x40).dev.mode = some .sequential ∧
    (0x10 : ReqAddr).toNat < (ready 0x40).cfg.deviceCapacity ∧
    (0x10 : ReqAddr).toNat + 4 ≤ (ready 0x40).cfg.deviceCapacity := by decide

theorem witness_WriteThenReadReturnsBytes :
    (ready 0x41).cfg.wf = true ∧ (ready 0x41).ready = true ∧ (ready 0x41).allAnswersOk = true ∧
    (ready 0x41).dev.mode.isSome = true ∧ (ready 0x41).dev.mode = some .sequential ∧
    (0 : ReqAddr).toNat < (ready 0x41).cfg.deviceCapacity ∧
    (0 : ReqAddr).toNat + ([0x3F] : List Byte).length ≤ (ready 0x41).cfg.deviceCapacity := by decide

theorem witness_TransferCountsAreExact :
    (ready 0x40).fault = .none ∧ (ready 0x40).allAnswersOk = true ∧ (ready 0x40).csN = .high ∧
    exec .readStatus (ready 0x40) = .next (after .readStatus (ready 0x40)) ∧
    nextWith (execAll (writeBurst 0x10 [0x01]) (ready 0x40))
      (fun t => transferCount t.trace == 5 && edgeCount .high (csLevels t.trace) == 2) = true ∧
    nextWith (execAll ([(true, 0x10, 0x01), (false, 0x11, 0)].flatMap fun p : Bool × ReqAddr × Byte =>
        if p.1 then writeByte p.2.1 p.2.2 else readByte p.2.1) (ready 0x40))
      (fun t => transferCount t.trace == 10 && edgeCount .high (csLevels t.trace) == 4) = true :=
  ⟨rfl, rfl, rfl, rfl, by decide, by decide⟩

end Sys2Proof.Tests
end

section
/-! What the framer can depend on (R3, R66): agreement of two states on the wire, `State.SameWire`, is carried through
each operation of the machine, and so through every instruction. The line, the device and the bytes received may differ
on the two sides throughout. -/

namespace Sys2Proof.Machine

open Sys2Proof

variable {s t : State}

/-! ### Operations that do not branch -/

/-- The two events may differ in the byte received. -/
theorem record_sameWire {e f : Event} (he : e.hideRx = f.hideRx) (h : s.SameWire t) :
    (record e s).SameWire (record f t) :=
  ⟨h.cfg, h.fault, by simp [h.trace, he], h.responses, h.inputs, h.answers⟩

/-- The two responses may differ in their data. -/
theorem respond_sameWire (err : ErrCode) (d d' : Byte) (h : s.SameWire t) :
    (respond err d s).SameWire (respond err d' t) :=
  ⟨h.cfg, h.fault, h.trace, by simp [h.responses], h.inputs, h.answers⟩

/-- Line and device are outside what the two states agree on. -/
theorem withLineAndDevice_sameWire (l l' : Level) (d d' : Device) (h : s.SameWire t) :
    State.SameWire { s with csN := l, dev := d } { t with csN := l', dev := d' } :=
  ⟨h.cfg, h.fault, h.trace, h.responses, h.inputs, h.answers⟩

theorem setCS_sameWire (l : Level) (h : s.SameWire t) : (setCS l s).SameWire (setCS l t) :=
  record_sameWire rfl (withLineAndDevice_sameWire _ _ _ _ h)

theorem useAnswer_sameWire (h : s.SameWire t) : s.useAnswer.SameWire t.useAnswer :=
  ⟨h.cfg, h.fault, h.trace, h.responses, h.inputs, by simp [h.answers]⟩

theorem afterTransfer_sameWire (tx : Byte) (h : s.SameWire t) : (afterTransfer tx s).SameWire (afterTransfer tx t) :=
  ⟨h.cfg, h.fault, by simp [h.trace, Event.hideRx], h.responses, h.inputs, by simp [h.answers]⟩

theorem takeTransportError_sameWire (tx : Byte) (h : s.SameWire t) :
    (takeTransportError tx s).SameWire (takeTransportError tx t) :=
  ⟨h.cfg, rfl, by simp [h.trace], by simp [h.responses], h.inputs, h.answers⟩

theorem resetDuringTransfer_sameWire (h : s.SameWire t) : (resetDuringTransfer s).SameWire (resetDuringTransfer t) :=
  ⟨h.cfg, rfl, rfl, h.responses, h.inputs, h.answers⟩

theorem contractOfOperation_sameWire (op : Operation) (h : s.SameWire t) :
    (contractOfOperation op s).SameWire (contractOfOperation op t) := by
  constructor <;> simp [h.cfg, h.fault, h.trace, h.responses, h.inputs, h.answers]

theorem contractOfAddress_sameWire (addr : ReqAddr) (h : s.SameWire t) :
    (contractOfAddress addr s).SameWire (contractOfAddress addr t) := by
  constructor <;> simp [h.cfg, h.fault, h.trace, h.responses, h.inputs, h.answers]

/-! ### Transfers and frames -/

/-- Two runs of transfers that end alike, in states that agree; the bytes received may differ. -/
inductive SameXfer : XferResult → XferResult → Prop
  | got {rx rx' : Byte} {s t : State} (h : s.SameWire t) : SameXfer (.got rx s) (.got rx' t)
  | ended {s t : State} (h : s.SameWire t) : SameXfer (.ended s) (.ended t)
  | stalled : SameXfer .stalled .stalled

theorem andThen_sameXfer {f g : Byte → State → XferResult} {r r' : XferResult} (h : SameXfer r r')
    (hfg : ∀ (rx rx' : Byte) {s t : State}, s.SameWire t → SameXfer (f rx s) (g rx' t)) :
    SameXfer (r.andThen f) (r'.andThen g) := by
  cases h with
  | got h => exact hfg _ _ h
  | ended h => exact .ended h
  | stalled => exact .stalled

/-- How a transfer ends is the transport's choice, which the two states agree on. -/
theorem transfer_sameXfer (tx : Byte) (h : s.SameWire t) : SameXfer (transfer tx s) (transfer tx t) := by
  have ha : t.nextAnswer = s.nextAnswer := by simp only [State.nextAnswer, h.answers]
  rcases transfer_cases tx s with ⟨hs, hx⟩ | ⟨hs, hx⟩ | ⟨hs, hx⟩ | ⟨hs, hx⟩ <;> rw [hx]
  · rw [transfer_of_ok (ha.trans hs)]
    exact .got (afterTransfer_sameWire tx h)
  · rw [transfer_of_busFault (ha.trans hs)]
    exact .ended (takeTransportError_sameWire tx (useAnswer_sameWire h))
  · rw [transfer_of_reset (ha.trans hs)]
    exact .ended (resetDuringTransfer_sameWire (useAnswer_sameWire h))
  · rw [transfer_of_stall (ha.trans hs)]
    exact .stalled

theorem transferAll_sameXfer (bs : List Byte) (last last' : Byte) (h : s.SameWire t) :
    SameXfer (transferAll last bs s) (transferAll last' bs t) := by
  induction bs generalizing s t last last' with
  | nil => exact .got h
  | cons b bs ih => exact andThen_sameXfer (transfer_sameXfer b h) fun rx rx' _ _ h => ih rx rx' h

theorem sendHeader_sameXfer (op : Operation) (a : WireAddr) (h : s.SameWire t) :
    SameXfer (sendHeader op a s) (sendHeader op a t) :=
  transferAll_sameXfer _ _ _ (contractOfOperation_sameWire op (setCS_sameWire .low h))

theorem sendStatusFrame_sameXfer (opc d : Byte) (h : s.SameWire t) :
    SameXfer (sendStatusFrame opc d s) (sendStatusFrame opc d t) :=
  andThen_sameXfer (transferAll_sameXfer _ _ _ (setCS_sameWire .low h)) fun _ _ _ _ h => .got (setCS_sameWire .high h)

/-! ### The start and the end of an instruction -/

/-- The test at the start falls out the same way on both sides. -/
theorem unlessFaulted_sameOutcome {f g : State → Host.Outcome State Fault Refusal} (h : s.SameWire t)
    (hfg : SameOutcome State.SameWire (f s) (g t)) :
    SameOutcome State.SameWire (unlessFaulted s f) (unlessFaulted t g) := by
  cases hs : s.fault with
  | none =>
    rw [unlessFaulted_of_none hs, unlessFaulted_of_none (h.fault ▸ hs)]
    exact hfg
  | transportError =>
    rw [unlessFaulted_of_fault hs, unlessFaulted_of_fault (h.fault ▸ hs)]
    exact respond_sameWire _ _ _ h

theorem finishRequest_sameOutcome (f : Byte → Byte) {r r' : XferResult} (h : SameXfer r r') :
    SameOutcome State.SameWire (finishRequest f r) (finishRequest f r') := by
  cases h with
  | got h => exact respond_sameWire _ _ _ h
  | ended h => exact h
  | stalled => exact rfl

theorem finishFrame_sameOutcome {r r' : XferResult} (h : SameXfer r r') :
    SameOutcome State.SameWire (finishFrame r) (finishFrame r') := by
  cases h with
  | got h => exact h
  | ended h => exact h
  | stalled => exact rfl

/-! ### The instructions, by the form of their rule -/

theorem execSendCmd_sameOutcome (op : Operation) (addr : ReqAddr) (h : s.SameWire t) :
    SameOutcome State.SameWire (execSendCmd op addr s) (execSendCmd op addr t) :=
  unlessFaulted_sameOutcome h
    (finishRequest_sameOutcome _ (sendHeader_sameXfer op _ (contractOfAddress_sameWire addr h)))

theorem execXfer_sameOutcome (data : Byte) (h : s.SameWire t) :
    SameOutcome State.SameWire (execXfer data s) (execXfer data t) :=
  unlessFaulted_sameOutcome h (finishRequest_sameOutcome _ (transfer_sameXfer data h))

theorem execEndCmd_sameOutcome (h : s.SameWire t) : SameOutcome State.SameWire (execEndCmd s) (execEndCmd t) :=
  unlessFaulted_sameOutcome h (respond_sameWire _ _ _ (setCS_sameWire .high h))

theorem execReadStatus_sameOutcome (h : s.SameWire t) :
    SameOutcome State.SameWire (execReadStatus s) (execReadStatus t) :=
  unlessFaulted_sameOutcome h (finishRequest_sameOutcome _ (sendStatusFrame_sameXfer _ _ h))

theorem illegalRequest_sameOutcome (h : s.SameWire t) :
    SameOutcome State.SameWire (unlessFaulted s takeIllegalRequest) (unlessFaulted t takeIllegalRequest) :=
  unlessFaulted_sameOutcome h (respond_sameWire _ _ _ h)

/-- The mode byte is the configuration's, on which the two states agree. -/
theorem setMode_sameOutcome (m : TransferMode) (h : s.SameWire t) :
    SameOutcome State.SameWire (setMode m s) (setMode m t) := by
  refine unlessFaulted_sameOutcome h (finishRequest_sameOutcome _ ?_)
  rw [h.cfg]
  exact sendStatusFrame_sameXfer _ _ h

theorem wireHeader_sameOutcome (op : Operation) (a : WireAddr) (h : s.SameWire t) :
    SameOutcome State.SameWire (unlessFaulted s fun s => finishFrame (sendHeader op a s))
      (unlessFaulted t fun t => finishFrame (sendHeader op a t)) :=
  unlessFaulted_sameOutcome h (finishFrame_sameOutcome (sendHeader_sameXfer op a h))

theorem wireStatus_sameOutcome (opc d : Byte) (h : s.SameWire t) :
    SameOutcome State.SameWire (unlessFaulted s fun s => finishFrame (sendStatusFrame opc d s))
      (unlessFaulted t fun t => finishFrame (sendStatusFrame opc d t)) :=
  unlessFaulted_sameOutcome h (finishFrame_sameOutcome (sendStatusFrame_sameXfer opc d h))

/-- Settles O45: each instruction is built of operations that carry the agreement through. -/
theorem framerIgnoresLineAndDevice : Obligations.FramerIgnoresLineAndDevice := by
  intro i s t h
  cases i with
  | sendCmd op addr => exact execSendCmd_sameOutcome op addr h
  | xfer data => exact execXfer_sameOutcome data h
  | endCmd => exact execEndCmd_sameOutcome h
  | setModeByte => exact setMode_sameOutcome .byte h
  | setModeSequential => exact setMode_sameOutcome .sequential h
  | setModePage => exact setMode_sameOutcome .page h
  | readStatus => exact execReadStatus_sameOutcome h
  | setModeReserved | reservedKind5 | reservedKind6To7 | reservedKind8ToF => exact illegalRequest_sameOutcome h
  | wireRead a | wireWrite a | wireRdsrA a | wireWrsrA a => exact wireHeader_sameOutcome _ a h
  | wireWrsr d | wireRdsr d => exact wireStatus_sameOutcome _ d h
  | wireHsread | wireRstio => exact rfl

end Sys2Proof.Machine
end

section
/-! How a step goes on from a state (R12, R13, R21): the relation `Continues` says what an instruction does to the framer
while neither a bus fault nor a reset ends it. One inversion lemma for `exec` and one for `step` are stated with it, and
the properties of the framer's record are read off them. -/

namespace Sys2Proof.Machine

open Sys2Proof

/-! ### The states an instruction goes through -/

/-- `t` comes out of `s` by the events `es`, with neither a bus fault nor a reset among them. -/
structure Continues (s : State) (es : List Event) (t : State) : Prop where
  cfg        : t.cfg = s.cfg
  fault      : t.fault = s.fault
  trace      : t.trace = s.trace ++ es
  noBusFault : hasBusFault es = false
  line       : t.csN = lineAfter s.csN es
  responses  : s.responses <+: t.responses
  memory     : s.dev.memOk s.cfg.deviceCapacity → t.dev.memOk t.cfg.deviceCapacity

theorem Continues.trans {s t u : State} {es fs : List Event} (h : Continues s es t) (h' : Continues t fs u) :
    Continues s (es ++ fs) u where
  cfg := h'.cfg.trans h.cfg
  fault := h'.fault.trans h.fault
  trace := by rw [h'.trace, h.trace, List.append_assoc]
  noBusFault := by rw [hasBusFault_append, h.noBusFault, h'.noBusFault, Bool.or_false]
  line := by rw [h'.line, h.line, lineAfter_append]
  responses := h.responses.trans h'.responses
  memory hm := h'.memory (h.memory hm)

theorem continues_respond (err : ErrCode) (d : Byte) (s : State) : Continues s [] (respond err d s) :=
  ⟨rfl, rfl, (List.append_nil _).symm, rfl, rfl, List.prefix_append _ _, id⟩

theorem continues_useAnswer (s : State) : Continues s [] s.useAnswer :=
  ⟨rfl, rfl, (List.append_nil _).symm, rfl, rfl, List.prefix_rfl, id⟩

theorem continues_setCS (l : Level) (s : State) : Continues s [.cs l] (setCS l s) :=
  ⟨rfl, rfl, rfl, rfl, rfl, List.prefix_rfl, memOk_setCS⟩

theorem continues_runBytes (bs : List Byte) (s : State) : ∃ es, Continues s es (runBytes bs s) := by
  obtain ⟨hcfg, hline, hfault, hresp, -, -, -, rxs, -, htrace⟩ := runBytes_spec bs s
  refine ⟨_, hcfg, hfault, htrace, hasBusFault_zipWith_t bs rxs, ?_, hresp ▸ List.prefix_rfl, ?_⟩
  · rw [hline, lineAfter_zipWith_t]
  · rw [hcfg]
    exact memOk_runBytes

theorem continues_plan_start {i : Instr} {s start : State} {bytes : List Byte} {close : Byte → State → State}
    (h : plan i s = .run start bytes close) : ∃ es, Continues s es start := by
  obtain ⟨-, hfault, hcfg, -, hresp, -, -, hline⟩ := plan_start h
  have hmem : s.dev.memOk s.cfg.deviceCapacity → start.dev.memOk start.cfg.deviceCapacity :=
    fun hm => hcfg ▸ memOk_plan_start h hm
  have hresp : s.responses <+: start.responses := hresp ▸ List.prefix_rfl
  rcases hline with ⟨htrace, hcs⟩ | ⟨htrace, hcs⟩
  · exact ⟨[], hcfg, hfault, by rw [htrace, List.append_nil], rfl, hcs, hresp, hmem⟩
  · exact ⟨[.cs .low], hcfg, hfault, htrace, rfl, hcs, hresp, hmem⟩

theorem continues_plan_close {i : Instr} {s start : State} {bytes : List Byte} {close : Byte → State → State}
    (h : plan i s = .run start bytes close) (rx : Byte) (u : State) : ∃ es, Continues u es (close rx u) := by
  obtain ⟨hline, hfault, hcfg, -, -, hresp⟩ := plan_close h rx u
  have hresp : u.responses <+: (close rx u).responses := by
    rcases hresp with ⟨-, hr⟩ | ⟨-, d, hr⟩
    · exact hr ▸ List.prefix_rfl
    · exact hr ▸ List.prefix_append _ _
  rcases hline with ⟨htrace, hcs, hdev⟩ | ⟨htrace, hcs, hdev⟩
  · exact ⟨[], hcfg, hfault, by rw [htrace, List.append_nil], rfl, hcs, hresp, by rw [hdev, hcfg]; exact id⟩
  · exact ⟨[.cs .high], hcfg, hfault, htrace, rfl, hcs, hresp, by rw [hdev, hcfg]; exact memOk_setCS⟩

/-- A run of transfers that goes through, from the instruction's start to its close. -/
theorem continues_plan_run {i : Instr} {s start : State} {bytes : List Byte} {close : Byte → State → State}
    (h : plan i s = .run start bytes close) (rx : Byte) :
    ∃ es, Continues s es (close rx (runBytes bytes start)) := by
  obtain ⟨_, hstart⟩ := continues_plan_start h
  obtain ⟨_, hrun⟩ := continues_runBytes bytes start
  obtain ⟨_, hclose⟩ := continues_plan_close h rx (runBytes bytes start)
  exact ⟨_, (hstart.trans hrun).trans hclose⟩

/-- The state a transfer of a run starts from, after the transfers before it. -/
theorem continues_plan_prefix {i : Instr} {s start : State} {bytes : List Byte} {close : Byte → State → State}
    (h : plan i s = .run start bytes close) (pre : List Byte) :
    ∃ es, Continues s es (runBytes pre start).useAnswer := by
  obtain ⟨_, hstart⟩ := continues_plan_start h
  obtain ⟨_, hrun⟩ := continues_runBytes pre start
  exact ⟨_, (hstart.trans hrun).trans (continues_useAnswer _)⟩

theorem continues_plan_answer {i : Instr} {s t : State} (h : plan i s = .answer t) : ∃ es, Continues s es t := by
  obtain ⟨-, -, -, -, ⟨-, rfl⟩ | ⟨-, rfl⟩⟩ := plan_answer h
  · exact ⟨_, (continues_setCS .high s).trans (continues_respond _ _ _)⟩
  · exact ⟨_, continues_respond _ _ _⟩

/-! ### Inversion of exec and step -/

/-- A reset that a run of an instruction's transfers meets stands in the coming answers. -/
theorem reset_mem_answers {i : Instr} {s start : State} {bytes pre : List Byte} {close : Byte → State → State}
    (h : plan i s = .run start bytes close) (hr : (runBytes pre start).nextAnswer = .reset) : .reset ∈ s.answers := by
  obtain ⟨hstart, -⟩ := plan_start h
  obtain ⟨-, -, -, -, -, hrun, -⟩ := runBytes_spec pre start
  rw [State.nextAnswer, hrun, hstart] at hr
  cases hh : (s.answers.drop pre.length).head? with
  | none =>
    rw [hh] at hr
    cases hr
  | some a =>
    rw [hh] at hr
    cases hr
    exact List.mem_of_mem_drop (List.mem_of_head? hh)

/-- An instruction that answers next goes on without a bus fault or a reset, or goes on so up to the transfer that a
bus fault, or a reset among the coming answers, ends it at. -/
theorem exec_next_continues {i : Instr} {s t : State} (h : exec i s = .next t) :
    (∃ es, Continues s es t) ∨
    (∃ es u tx, Continues s es u ∧ s.fault = .none ∧ t = takeTransportError tx u) ∨
    (∃ es u, Continues s es u ∧ .reset ∈ s.answers ∧ t = resetDuringTransfer u) := by
  rcases exec_next_cases h with
    ⟨-, rfl⟩ | ⟨-, hp⟩ | ⟨hf, start, bytes, close, hp, ⟨rx, -, rfl⟩ | ⟨pre, b, post, -, ⟨-, rfl⟩ | ⟨hr, rfl⟩⟩⟩
  · exact .inl ⟨_, continues_respond _ _ _⟩
  · exact .inl (continues_plan_answer hp)
  · exact .inl (continues_plan_run hp rx)
  · obtain ⟨es, hu⟩ := continues_plan_prefix hp pre
    exact .inr (.inl ⟨es, _, b, hu, hf, rfl⟩)
  · obtain ⟨es, hu⟩ := continues_plan_prefix hp pre
    exact .inr (.inr ⟨es, _, hu, reset_mem_answers hp hr, rfl⟩)

/-- A step that answers next: with no input nothing changes; else the input is taken, and it is a framer reset, a
power-cycle, or an instruction's frame or word. -/
theorem step_next_cases {s t : State} (h : step s = .next t) :
    t = s ∨ ∃ rest,
      (s.inputs = .framerReset :: rest ∧ t = framerReset { s with inputs := rest }) ∨
      (s.inputs = .devicePowerCycle :: rest ∧ t = devicePowerCycle { s with inputs := rest }) ∨
      ∃ p i, s.inputs = .present p :: rest ∧ exec i { s with inputs := rest } = .next t := by
  unfold step fetch takeInput at h
  cases hin : s.inputs with
  | nil =>
    simp only [hin] at h
    cases h
    exact .inl rfl
  | cons x rest =>
    refine .inr ⟨rest, ?_⟩
    cases x with
    | framerReset =>
      simp only [hin] at h
      cases h
      exact .inl ⟨rfl, rfl⟩
    | devicePowerCycle =>
      simp only [hin] at h
      cases h
      exact .inr (.inl ⟨rfl, rfl⟩)
    | present p =>
      simp only [hin] at h
      cases hd : decode p with
      | error e => simp [hd] at h
      | ok i => exact .inr (.inr ⟨p, i, rfl, by simpa only [hd] using h⟩)

/-! ### The configuration (R21) -/

theorem exec_cfg {i : Instr} {s t : State} (h : exec i s = .next t) : t.cfg = s.cfg := by
  rcases exec_next_continues h with ⟨_, ht⟩ | ⟨_, _, _, hu, -, rfl⟩ | ⟨_, _, hu, -, rfl⟩
  · exact ht.cfg
  · exact hu.cfg
  · exact hu.cfg

/-- Settles O44: every branch of the step copies the configuration. -/
theorem stepKeepsConfiguration : Obligations.StepKeepsConfiguration := by
  intro s t h
  rcases step_next_cases h with rfl | ⟨rest, ⟨-, rfl⟩ | ⟨-, rfl⟩ | ⟨_, _, -, hexec⟩⟩
  · rfl
  · rfl
  · rfl
  · exact exec_cfg (s := { s with inputs := rest }) hexec

/-! ### The trace and the responses (R13, R57) -/

/-- Without a reset among the coming answers an instruction adds to the trace and to the responses only. -/
theorem exec_grows {i : Instr} {s t : State} (hr : .reset ∉ s.answers) (h : exec i s = .next t) :
    s.trace <+: t.trace ∧ s.responses <+: t.responses := by
  rcases exec_next_continues h with ⟨_, ht⟩ | ⟨es, u, tx, hu, -, rfl⟩ | ⟨_, _, -, hmem, -⟩
  · exact ⟨ht.trace ▸ List.prefix_append _ _, ht.responses⟩
  · have htrace : s.trace <+: u.trace := hu.trace ▸ List.prefix_append _ _
    exact ⟨htrace.trans (List.prefix_append _ _), hu.responses.trans (List.prefix_append _ _)⟩
  · exact absurd hmem hr

/-- Settles O35: a power-cycle leaves the framer alone, and an instruction only adds. -/
theorem traceOnlyGrows : Obligations.TraceOnlyGrows := by
  intro s t hr hin h
  rcases step_next_cases h with rfl | ⟨rest, ⟨hreset, -⟩ | ⟨-, rfl⟩ | ⟨_, _, -, hexec⟩⟩
  · exact ⟨List.prefix_rfl, List.prefix_rfl⟩
  · exact absurd (by rw [hreset]; rfl) hin
  · exact ⟨List.prefix_rfl, List.prefix_rfl⟩
  · exact exec_grows (s := { s with inputs := rest }) hr hexec

/-! ### The fault record (R12) -/

/-- In an unfaulted state, without a reset among the coming answers, an instruction records the fault exactly when a
faulted transfer is its last event. -/
theorem exec_fault_iff {i : Instr} {s t : State} (hf : s.fault = .none) (hr : .reset ∉ s.answers)
    (h : exec i s = .next t) : t.fault = .transportError ↔ ∃ es tx, t.trace = s.trace ++ es ++ [.tf tx] := by
  rcases exec_next_continues h with ⟨es, ht⟩ | ⟨es, u, tx, hu, -, rfl⟩ | ⟨_, _, -, hmem, -⟩
  · constructor
    · intro htf
      rw [ht.fault, hf] at htf
      cases htf
    · rintro ⟨fs, tx, htrace⟩
      rw [ht.trace, List.append_assoc] at htrace
      have hno := ht.noBusFault
      rw [List.append_cancel_left htrace, hasBusFault_append, Bool.or_eq_false_iff] at hno
      cases hno.2
  · exact ⟨fun _ => ⟨es, tx, by rw [takeTransportError_trace, hu.trace]⟩, fun _ => rfl⟩
  · exact absurd hmem hr

/-- Settles O26: a faulted state answers every request alike; an unfaulted one by `exec_fault_iff`. -/
theorem faultRecordIsSticky : Obligations.FaultRecordIsSticky := by
  intro i s t _ hr h
  refine ⟨fun hf => ?_, fun hf => exec_fault_iff hf hr h, rfl⟩
  obtain ⟨h1, h2⟩ := emitted_of_next h
  rw [exec_of_faulted hf h1 h2] at h
  cases h
  exact ⟨hf, rfl⟩

/-- Settles O27: as O26, since the inversion of `exec` covers the wire rows too. -/
theorem wireRowsKeepTheFaultRecord : Obligations.WireRowsKeepTheFaultRecord :=
  fun _ _ _ h1 h2 => ⟨fun hf => exec_of_faulted hf h1 h2, fun _ hf hr h => exec_fault_iff hf hr h⟩

end Sys2Proof.Machine
end

section
/-! Every step keeps the invariant of Safety.lean. It is cut in two: `State.wireInv` holds also between the transfers of
an instruction, so `Continues` carries it; `State.burstInv` holds between instructions only, and is read off where the
device stands when an instruction is over. -/

namespace Sys2Proof.Machine

open Sys2Proof

/-- The part of the invariant that every transfer keeps: configuration, memory, line and fault record. -/
def State.wireInv (s : State) : Prop :=
  s.cfg.wf = true ∧ s.dev.memOk s.cfg.deviceCapacity ∧ s.csN = lineAfter .high s.trace ∧
    (s.fault == .transportError) = hasBusFault s.trace

/-- The part of the invariant that speaks of the burst, open or not, between two instructions. -/
def State.burstInv (s : State) : Prop :=
  s.dev.counterWf s.cfg.deviceCapacity = true ∧ (s.csN = .low ∨ s.dev.phase = .idle) ∧
    (s.fault = .none ∨ s.dev.lost = true)

theorem inv_iff_wireInv_burstInv {s : State} : s.inv = true ↔ s.wireInv ∧ s.burstInv := by
  rw [State.inv_iff, State.wireInv, State.burstInv]
  tauto

/-! ### The wire -/

theorem Continues.wireInv {s t : State} {es : List Event} (h : Continues s es t) (hs : s.wireInv) : t.wireInv := by
  obtain ⟨hcfg, hmem, hline, hfault⟩ := hs
  refine ⟨h.cfg ▸ hcfg, h.memory hmem, ?_, ?_⟩
  · rw [h.line, hline, h.trace, lineAfter_append]
  · rw [h.fault, hfault, h.trace, hasBusFault_append, h.noBusFault, Bool.or_false]

/-- A faulted transfer records the fault and its event together. -/
theorem wireInv_takeTransportError {s : State} (tx : Byte) (h : s.wireInv) : (takeTransportError tx s).wireInv := by
  obtain ⟨hcfg, -, hline, -⟩ := h
  refine ⟨hcfg, Device.memOk_lose _ _, ?_, ?_⟩
  · rw [takeTransportError_csN, hline, takeTransportError_trace, lineAfter_append]
    rfl
  · rw [takeTransportError_trace, hasBusFault_append]
    exact (Bool.or_true _).symm

/-- The reset values agree with the empty trace (R23), so only the device's memory is in question. -/
theorem wireInv_resetDuringTransfer {s : State} (h : s.wireInv) : (resetDuringTransfer s).wireInv := by
  obtain ⟨hcfg, hmem, -, -⟩ := h
  obtain ⟨-, -, -, hcut⟩ :=
    Device.cutShort_spec (cap := s.cfg.deviceCapacity) (free := Config.freeRx s.draws) (d := s.dev)
  exact ⟨hcfg, hcut hmem, rfl, rfl⟩

theorem wireInv_framerReset {s : State} (h : s.wireInv) : (framerReset s).wireInv := by
  obtain ⟨hcfg, hmem, -, -⟩ := h
  have hdev : (framerReset s).dev.memOk s.cfg.deviceCapacity :=
    Device.memOk_congr (d := s.dev.deselect) rfl (Device.memOk_deselect hmem)
  exact ⟨hcfg, hdev, rfl, rfl⟩

theorem wireInv_devicePowerCycle {s : State} (h : s.wireInv) : (devicePowerCycle s).wireInv := by
  obtain ⟨hcfg, -, hline, hfault⟩ := h
  exact ⟨hcfg, ⟨rfl, rfl⟩, hline, hfault⟩

theorem exec_wireInv {i : Instr} {s t : State} (h : exec i s = .next t) (hs : s.wireInv) : t.wireInv := by
  rcases exec_next_continues h with ⟨_, ht⟩ | ⟨_, _, tx, hu, -, rfl⟩ | ⟨_, _, hu, -, rfl⟩
  · exact ht.wireInv hs
  · exact wireInv_takeTransportError tx (hu.wireInv hs)
  · exact wireInv_resetDuringTransfer (hu.wireInv hs)

/-! ### The burst: where the device can stand -/

/-- An unspecified device meets the burst's part whatever its counter holds (log entry 31). -/
theorem burstInv_of_lost {s : State} (hl : s.dev.lost = true) (hp : s.dev.phase = .idle) : s.burstInv :=
  ⟨(Device.counterWf_lost hl).2 hp, .inr hp, .inr hl⟩

theorem Device.counterWf_of_idle {cap : Nat} {d : Device} (hp : d.phase = .idle) (hc : d.ctr = none) :
    d.counterWf cap = true := by
  cases hl : d.lost
  · exact (Device.counterWf_specified hl).2 (.inl ⟨hp, hc⟩)
  · exact (Device.counterWf_lost hl).2 hp

/-- No burst is open. -/
theorem burstInv_of_idle {s : State} (hp : s.dev.phase = .idle) (hc : s.dev.ctr = none)
    (hf : s.fault = .none ∨ s.dev.lost = true) : s.burstInv :=
  ⟨Device.counterWf_of_idle hp hc, .inr hp, hf⟩

/-- After chip-select has risen between two instructions no burst is open (R32). -/
theorem Device.deselect_idle_of_counterWf {cap : Nat} {d : Device} (h : d.counterWf cap = true) :
    d.deselect.phase = .idle ∧ d.deselect.ctr = none := by
  cases hl : d.lost
  · rcases (Device.counterWf_specified hl).1 h with ⟨hp, hc⟩ | ⟨k, first, a, hp, -⟩
    · rw [Device.deselect_idle hl hp]
      exact ⟨hp, hc⟩
    · rw [Device.deselect_data hl hp]
      exact ⟨rfl, rfl⟩
  · rw [Device.deselect_of_lost hl]
    exact ⟨rfl, rfl⟩

theorem setCS_high_dev (s : State) : (setCS .high s).dev = s.dev.deselect := by
  rw [setCS_dev]
  cases s.csN <;> rfl

/-- A data byte leaves the device unspecified, or in the data phase with the counter as R28 to R30 give it. -/
theorem counterWf_devAfter {tx : Byte} {s : State} (h : s.dev.counterWf s.cfg.deviceCapacity = true) :
    (devAfter tx s).counterWf s.cfg.deviceCapacity = true := by
  have hlose : s.dev.lose.counterWf s.cfg.deviceCapacity = true := (Device.counterWf_lost rfl).2 rfl
  unfold devAfter
  cases hl : s.dev.lost
  · rcases (Device.counterWf_specified hl).1 h with ⟨hp, -⟩ | ⟨k, first, a, hp, -, hmode, -⟩
    · rwa [Device.exchange_idle hl hp]
    · rw [Device.exchange_data hl hp]
      cases ha : s.dev.dataAddress s.cfg.deviceCapacity with
      | none => rwa [Device.dataByte_undefined ha]
      | some b =>
        obtain ⟨-, hb, -⟩ := Device.dataAddress_spec ha
        cases k with
        | read =>
          rw [Device.dataByte_read ha]
          exact Device.counterWf_advance hl hmode hb
        | write =>
          rw [Device.dataByte_write ha]
          exact Device.counterWf_advance (d := s.dev) hl hmode hb
  · rwa [Device.exchange_of_lost hl]

/-- A byte with no burst open opens none (U8). -/
theorem phase_devAfter_of_idle {tx : Byte} {s : State} (hp : s.dev.phase = .idle) : (devAfter tx s).phase = .idle := by
  unfold devAfter
  cases hl : s.dev.lost
  · rw [Device.exchange_idle hl hp]
    rfl
  · rw [Device.exchange_of_lost hl]
    rfl

/-- A header leaves the device unspecified, or with the counter loaded below the capacity (R27). -/
theorem counterWf_headerEnd (op : Operation) (a : WireAddr) (s : State) :
    (headerEnd op a s).dev.counterWf s.cfg.deviceCapacity = true := by
  cases hl : (headerEnd op a s).dev.lost
  · obtain ⟨-, hs, k, -, hmode, ha, hdev⟩ := headerEnd_specified hl
    rw [hdev]
    exact (Device.counterWf_specified (d := { s.dev with phase := .data k true, ctr := some a.toNat }) hs).2
      (.inr ⟨k, true, a.toNat, rfl, rfl, hmode, .inl ha.le⟩)
  · refine (Device.counterWf_lost hl).2 ?_
    rw [headerEnd_eq, afterTransfer_dev, devAfter] at hl ⊢
    rw [Device.exchange_eq_lose hl]
    rfl

/-- A status frame leaves no burst open, whether the device is specified or not (R27, R32). -/
theorem statusFrame_idle {opc : Byte} (hopc : opc = opcWrsr ∨ opc = opcRdsr) (d : Byte) (s : State) :
    (setCS .high (statusBytes opc d s)).dev.phase = .idle ∧ (setCS .high (statusBytes opc d s)).dev.ctr = none := by
  cases hl : (setCS .high (statusBytes opc d s)).dev.lost
  · obtain ⟨hc, hs⟩ := status_specified hl
    rcases hopc with rfl | rfl
    · rw [statusWrite_dev hc hs]
      exact ⟨rfl, rfl⟩
    · rw [(statusRead_dev hc hs).1]
      exact ⟨rfl, rfl⟩
  · rw [setCS_high_dev] at hl ⊢
    rw [Device.deselect_eq_lose hl]
    exact ⟨rfl, rfl⟩

/-! ### The burst through an instruction -/

/-- The burst a header opened is still open when the header is over. -/
theorem headerEnd_csN (op : Operation) (a : WireAddr) (s : State) : (headerEnd op a s).csN = .low := by
  rw [headerEnd_eq]
  exact headerStart_csN op s

/-- The three forms of a run of transfers that goes through: a header, which leaves the line low; a status frame; one
data byte, which leaves the line alone. -/
theorem plan_run_forms {i : Instr} {s start : State} {bytes : List Byte} {close : Byte → State → State}
    (h : plan i s = .run start bytes close) (rx : Byte) :
    (∃ op a u, u.cfg = s.cfg ∧ (close rx (runBytes bytes start)).dev = (headerEnd op a u).dev ∧
      (close rx (runBytes bytes start)).csN = .low) ∨
    (∃ opc d, (opc = opcWrsr ∨ opc = opcRdsr) ∧
      (close rx (runBytes bytes start)).dev = (setCS .high (statusBytes opc d s)).dev) ∨
    (∃ tx, (close rx (runBytes bytes start)).dev = devAfter tx s ∧ (close rx (runBytes bytes start)).csN = s.csN) := by
  cases i <;> simp only [plan] at h <;> cases h
  case sendCmd op addr =>
    exact .inl ⟨op, wireAddr addr, contractOfAddress addr s, contractOfAddress_cfg addr s, rfl,
      headerEnd_csN op (wireAddr addr) (contractOfAddress addr s)⟩
  case wireRead a => exact .inl ⟨.read, a, s, rfl, rfl, headerEnd_csN .read a s⟩
  case wireWrite a => exact .inl ⟨.write, a, s, rfl, rfl, headerEnd_csN .write a s⟩
  case wireRdsrA a => exact .inl ⟨.readStatus, a, s, rfl, rfl, headerEnd_csN .readStatus a s⟩
  case wireWrsrA a => exact .inl ⟨.writeStatus, a, s, rfl, rfl, headerEnd_csN .writeStatus a s⟩
  case xfer data => exact .inr (.inr ⟨data, rfl, rfl⟩)
  case setModeByte | setModeSequential | setModePage => exact .inr (.inl ⟨_, _, .inl rfl, rfl⟩)
  case wireWrsr => exact .inr (.inl ⟨_, _, .inl rfl, rfl⟩)
  case readStatus | wireRdsr => exact .inr (.inl ⟨_, _, .inr rfl, rfl⟩)

theorem burstInv_plan_run {i : Instr} {s start : State} {bytes : List Byte} {close : Byte → State → State}
    (h : plan i s = .run start bytes close) (rx : Byte) (hf : s.fault = .none) (hs : s.burstInv) :
    (close rx (runBytes bytes start)).burstInv := by
  obtain ⟨_, ht⟩ := continues_plan_run h rx
  have hfault : (close rx (runBytes bytes start)).fault = .none := ht.fault.trans hf
  rcases plan_run_forms h rx with ⟨op, a, u, hu, hdev, hcs⟩ | ⟨opc, d, hopc, hdev⟩ | ⟨tx, hdev, hcs⟩
  · refine ⟨?_, .inl hcs, .inl hfault⟩
    rw [hdev, ht.cfg, ← hu]
    exact counterWf_headerEnd op a u
  · obtain ⟨hp, hc⟩ := statusFrame_idle hopc d s
    exact burstInv_of_idle (hdev ▸ hp) (hdev ▸ hc) (.inl hfault)
  · obtain ⟨hctr, hline, -⟩ := hs
    refine ⟨?_, ?_, .inl hfault⟩
    · rw [hdev, ht.cfg]
      exact counterWf_devAfter hctr
    · rw [hdev, hcs]
      exact hline.imp_right phase_devAfter_of_idle

theorem burstInv_plan_answer {i : Instr} {s t : State} (h : plan i s = .answer t) (hf : s.fault = .none)
    (hs : s.burstInv) : t.burstInv := by
  obtain ⟨-, -, -, -, ⟨-, rfl⟩ | ⟨-, rfl⟩⟩ := plan_answer h
  · obtain ⟨hp, hc⟩ := Device.deselect_idle_of_counterWf hs.1
    have hdev : (respond .ok 0 (setCS .high s)).dev = s.dev.deselect := setCS_high_dev s
    exact burstInv_of_idle (hdev ▸ hp) (hdev ▸ hc) (.inl hf)
  · exact hs

theorem exec_burstInv {i : Instr} {s t : State} (h : exec i s = .next t) (hs : s.burstInv) : t.burstInv := by
  rcases exec_next_cases h with
    ⟨-, rfl⟩ | ⟨hf, hp⟩ | ⟨hf, start, bytes, close, hp, ⟨rx, -, rfl⟩ | ⟨pre, b, post, -, ⟨-, rfl⟩ | ⟨-, rfl⟩⟩⟩
  · exact hs
  · exact burstInv_plan_answer hp hf hs
  · exact burstInv_plan_run hp rx hf hs
  · exact burstInv_of_lost rfl rfl
  · obtain ⟨hphase, hctr, -, -⟩ := Device.cutShort_spec
    exact burstInv_of_idle hphase hctr (.inl rfl)

/-! ### The step -/

theorem framerReset_inv {s : State} (h : s.inv = true) : (framerReset s).inv = true := by
  obtain ⟨hwire, hctr, -, -⟩ := inv_iff_wireInv_burstInv.1 h
  obtain ⟨hp, hc⟩ := Device.deselect_idle_of_counterWf hctr
  exact inv_iff_wireInv_burstInv.2 ⟨wireInv_framerReset hwire, burstInv_of_idle hp hc (.inl rfl)⟩

theorem devicePowerCycle_inv {s : State} (h : s.inv = true) : (devicePowerCycle s).inv = true := by
  obtain ⟨hwire, -, -, hfault⟩ := inv_iff_wireInv_burstInv.1 h
  exact inv_iff_wireInv_burstInv.2 ⟨wireInv_devicePowerCycle hwire, burstInv_of_idle rfl rfl hfault⟩

theorem exec_inv {i : Instr} {s t : State} (h : exec i s = .next t) (hs : s.inv = true) : t.inv = true := by
  obtain ⟨hwire, hburst⟩ := inv_iff_wireInv_burstInv.1 hs
  exact inv_iff_wireInv_burstInv.2 ⟨exec_wireInv h hwire, exec_burstInv h hburst⟩

/-- Settles O42: the invariant does not read the inputs, and each of the three kinds of input keeps it. -/
theorem stepKeepsInvariant : Obligations.StepKeepsInvariant := by
  intro s t hs h
  rcases step_next_cases h with rfl | ⟨rest, ⟨-, rfl⟩ | ⟨-, rfl⟩ | ⟨_, _, -, hexec⟩⟩
  · exact hs
  · exact framerReset_inv (s := { s with inputs := rest }) hs
  · exact devicePowerCycle_inv (s := { s with inputs := rest }) hs
  · exact exec_inv (s := { s with inputs := rest }) hexec hs

/-! ### The reset state (R23) -/

/-- Settles O10: the reset state is written out in the model. -/
theorem resetStateHasSpecValues : Obligations.ResetStateHasSpecValues :=
  ⟨rfl, rfl, rfl, rfl, rfl, rfl, rfl⟩

/-- Settles O43: the trace is empty, the memory lists nothing, and the device is idle with no counter value. -/
theorem resetMeetsInvariant : Obligations.ResetMeetsInvariant :=
  inv_iff_wireInv_burstInv.2
    ⟨⟨by decide, ⟨rfl, rfl⟩, rfl, rfl⟩, burstInv_of_idle rfl rfl (.inl rfl)⟩

end Sys2Proof.Machine
end

section
/-! What a data byte, a `SEND_CMD` and an `END_CMD` do to the device (R27 to R32). A device is compared with another
through `Device.endBurst`: where `d.endBurst = e.endBurst`, the two differ in the open burst only, that is in phase and
counter, and hold the same memory and the same status register. -/

namespace Sys2Proof.Machine

open Sys2Proof

/-! ### Devices that differ in the open burst only -/

@[simp] theorem Device.endBurst_endBurst (d : Device) : d.endBurst.endBurst = d.endBurst := rfl

@[simp] theorem Device.byteAt_endBurst (d : Device) (a : Nat) : d.endBurst.byteAt a = d.byteAt a := rfl

@[simp] theorem Device.mode_endBurst (d : Device) : d.endBurst.mode = d.mode := rfl

theorem Device.byteAt_eq_of_endBurst_eq {d e : Device} (h : d.endBurst = e.endBurst) (a : Nat) :
    d.byteAt a = e.byteAt a := by
  rw [← d.byteAt_endBurst, h, e.byteAt_endBurst]

theorem Device.status_eq_of_endBurst_eq {d e : Device} (h : d.endBurst = e.endBurst) :
    d.status = e.status ∧ d.statusKnown = e.statusKnown :=
  ⟨by simpa using congrArg Device.status h, by simpa using congrArg Device.statusKnown h⟩

/-- Chip-select rising leaves the device unspecified or ends the burst only (R32). -/
theorem Device.deselect_endBurst {d : Device} (h : d.deselect.lost = false) : d.deselect.endBurst = d.endBurst := by
  cases hl : d.lost
  · cases hp : d.phase
    case opened | header => simp [Device.deselect, hl, hp] at h
    case idle => rw [Device.deselect_idle hl hp]
    all_goals simp [Device.deselect, hl, hp]
  · rw [Device.lost_deselect hl] at h
    cases h

/-! ### A data byte -/

section
variable {tx : Byte} {a : Nat} {first : Bool} {s : State}

/-- A data byte of a Write burst at a specified address (R27, R28). -/
theorem devAfter_write (hl : s.dev.lost = false) (hp : s.dev.phase = .data .write first)
    (ha : s.dev.dataAddress s.cfg.deviceCapacity = some a) : devAfter tx s =
      { s.dev.advance (Config.freeCtr s.draws) .write a with mem := Memory.store s.dev.mem a tx } := by
  rw [devAfter, Device.exchange_data hl hp, Device.dataByte_write ha]

/-- A data byte of a Read burst at a specified address (R27, R28). -/
theorem devAfter_read (hl : s.dev.lost = false) (hp : s.dev.phase = .data .read first)
    (ha : s.dev.dataAddress s.cfg.deviceCapacity = some a) :
    devAfter tx s = s.dev.advance (Config.freeCtr s.draws) .read a := by
  rw [devAfter, Device.exchange_data hl hp, Device.dataByte_read ha]

/-- The byte a Read burst receives is the memory byte at the counter, whatever is sent (R27). -/
theorem rxOf_read (hl : s.dev.lost = false) (hp : s.dev.phase = .data .read first)
    (ha : s.dev.dataAddress s.cfg.deviceCapacity = some a) : rxOf tx s = s.dev.byteAt a := by
  rw [rxOf, Device.exchange_data hl hp, Device.dataByte_read ha]

end

theorem State.safe_iff {s : State} : s.safe = true ↔ s.fault = .none ∧ s.dev.lost = false := by
  simp [State.safe]

/-- In Sequential mode the counter advances by one (R28). -/
theorem Device.advance_ctr_sequential {freeCtr a : Nat} {d : Device} {k : BurstKind}
    (h : d.mode = some .sequential) : (d.advance freeCtr k a).ctr = some (a + 1) := by
  rw [Device.advance_ctr, if_pos h]

/-- Settles O37: the byte is stored at the data address, which is the counter. -/
theorem writeBurstByteIsStored : Obligations.WriteBurstByteIsStored := by
  intro data first a s hs hans hp hc ha hm
  obtain ⟨hf, hl⟩ := State.safe_iff.1 hs
  have hdev := devAfter_write (tx := data) hl hp (Device.dataAddress_eq_some hp hc hm ha)
  refine ⟨_, exec_xfer_eq hf hans, ?_⟩
  rw [respond_dev, afterTransfer_dev, hdev]
  exact ⟨hl, Device.byteAt_store_same rfl, fun b hb => Device.byteAt_store_other rfl rfl hb, rfl, rfl,
    Device.advance_ctr_sequential (k := .write)⟩

/-- Settles O38: the byte received is that of the data address, which is the counter. -/
theorem readBurstByteIsReturned : Obligations.ReadBurstByteIsReturned := by
  intro data first a s hs hans hp hc ha hm
  obtain ⟨hf, hl⟩ := State.safe_iff.1 hs
  have haddr := Device.dataAddress_eq_some hp hc hm ha
  refine ⟨_, exec_xfer_eq hf hans, ?_, ?_⟩
  · rw [respond_responses, afterTransfer_responses, rxOf_read hl hp haddr]
  · rw [respond_dev, afterTransfer_dev, devAfter_read hl hp haddr]
    exact ⟨rfl, rfl, Device.advance_ctr_sequential⟩

/-! ### A data byte with no specified address -/

/-- The three cases R29 to R31 leave open leave no data address: no burst, a later byte of a burst that is not
Sequential, the end of the array. -/
theorem Device.dataAddress_eq_none {cap : Nat} {d : Device} (h : d.phase = .idle ∨
    (∃ k a, d.phase = .data k false ∧ d.ctr = some a ∧ d.mode ≠ some .sequential) ∨ d.ctr = some cap) :
    d.dataAddress cap = none := by
  cases ha : d.dataAddress cap with
  | none => rfl
  | some a =>
    obtain ⟨hc, hlt, k, first, hp, hm⟩ := Device.dataAddress_spec ha
    rcases h with h | ⟨k', a', hp', -, hm'⟩ | h
    · rw [hp] at h
      cases h
    · rw [hp] at hp'
      cases hp'
      simp [hm'] at hm
    · rw [hc] at h
      cases h
      exact absurd hlt (lt_irrefl _)

/-- Between two instructions, a byte with no data address leaves the device unspecified. -/
theorem devAfter_lost {tx : Byte} {s : State} (hctr : s.dev.counterWf s.cfg.deviceCapacity = true)
    (ha : s.dev.dataAddress s.cfg.deviceCapacity = none) : (devAfter tx s).lost = true := by
  cases hl : s.dev.lost
  · rcases (Device.counterWf_specified hl).1 hctr with ⟨hp, -⟩ | ⟨k, first, a, hp, -⟩
    · rw [devAfter, Device.exchange_idle hl hp]
      rfl
    · rw [devAfter, Device.exchange_data hl hp, Device.dataByte_undefined ha]
      rfl
  · exact devAfter_of_lost hl

/-- Settles O39: by the invariant the line is high only with no burst open, so each of the three cases leaves no data
address. -/
theorem undefinedDataByteLosesDevice : Obligations.UndefinedDataByteLosesDevice := by
  intro data s t hs hf hans h hcase
  obtain ⟨-, hctr, hline, -⟩ := inv_iff_wireInv_burstInv.1 hs
  rw [exec_xfer_eq hf hans] at h
  cases h
  refine devAfter_lost hctr (Device.dataAddress_eq_none (hcase.imp_left fun hhigh => ?_))
  simpa [hhigh] using hline

/-! ### The end of a burst -/

/-- Settles O41: between two instructions chip-select rising ends the burst, and changes nothing where none is open. -/
theorem endCmdEndsTheBurst : Obligations.EndCmdEndsTheBurst := by
  intro s t hs hsafe h
  obtain ⟨hf, hl⟩ := State.safe_iff.1 hsafe
  obtain ⟨-, hctr, hline, -⟩ := inv_iff_wireInv_burstInv.1 hs
  rw [exec_endCmd_eq hf] at h
  cases h
  rw [respond_dev, setCS_high_dev]
  obtain ⟨hphase, hnone⟩ := Device.deselect_idle_of_counterWf hctr
  have hlost : s.dev.deselect.lost = false := by
    rcases (Device.counterWf_specified hl).1 hctr with ⟨hp, -⟩ | ⟨k, first, a, hp, -⟩
    · rwa [Device.deselect_idle hl hp]
    · rwa [Device.deselect_data hl hp]
  have hsame := Device.deselect_endBurst hlost
  obtain ⟨hstatus, hknown⟩ := Device.status_eq_of_endBurst_eq hsame
  refine ⟨hnone, hphase, hlost, ?_, Device.byteAt_eq_of_endBurst_eq hsame, hstatus, hknown, fun hhigh => ?_⟩
  · rw [Device.select_of_specified hlost]
  · exact Device.deselect_idle hl (by simpa [hhigh] using hline)

/-! ### The header of a burst -/

/-- A request address inside the array loses nothing on the wire, where an address has 24 bits (R25, R50). -/
theorem wireAddr_toNat_of_lt {cfg : Config} {addr : ReqAddr} (hcfg : cfg.wf = true)
    (ha : addr.toNat < cfg.deviceCapacity) : (wireAddr addr).toNat = addr.toNat := by
  simp only [Config.wf, Bool.and_eq_true, decide_eq_true_eq] at hcfg
  rw [wireAddr_toNat, Nat.mod_eq_of_lt (ha.trans_le hcfg.2)]

/-- The device after a Read or Write command in the contract (R27). -/
theorem sendCmd_dev {op : Operation} {k : BurstKind} {addr : ReqAddr} {s : State} (hcfg : s.cfg.wf = true)
    (hop : (op = .read ∧ k = .read) ∨ (op = .write ∧ k = .write)) (hl : s.dev.lost = false) (hc : s.csN = .high)
    (hm : s.dev.mode.isSome = true) (ha : addr.toNat < s.cfg.deviceCapacity) :
    (headerEnd op (wireAddr addr) (contractOfAddress addr s)).dev =
      { s.dev with phase := .data k true, ctr := some addr.toNat } := by
  have haddr := wireAddr_toNat_of_lt hcfg ha
  rw [contractOfAddress_of_lt ha, headerEnd_dev hc hl hop]
  rw [← haddr] at ha ⊢
  exact Device.loadCounter_ok (d := { s.dev with phase := .header k _ }) hm ha

/-- Settles O15: out of the contract the device is lost, since a device still specified after the header was in it. -/
theorem sendCmdLoadsCounterOrLosesDevice : Obligations.SendCmdLoadsCounterOrLosesDevice := by
  intro op addr s t hs hf hans h
  rw [exec_sendCmd_eq hf hans] at h
  cases h
  rw [respond_dev]
  split
  · rename_i hin
    obtain ⟨hl, hc, hop, hm, ha⟩ := hin
    refine sendCmd_dev (State.inv_iff.1 hs).1 ?_ hl hc hm ha
    rcases hop with rfl | rfl <;> simp
  · rename_i hout
    by_contra hlost
    obtain ⟨hc, hl, k, hop, hm, -⟩ := headerEnd_specified (Bool.not_eq_true _ ▸ hlost)
    obtain ⟨ha, hsame⟩ := contractOfAddress_specified hl
    rw [hsame] at hc hl hm
    exact hout ⟨hl, hc, hop.imp And.left And.left, hm, ha⟩

end Sys2Proof.Machine
end

section
/-! No instruction but `XFER` stores a byte, and none but the status writes touches the status register (R26, R27). -/

namespace Sys2Proof.Machine

open Sys2Proof

/-! ### Runs of transfers that complete -/

/-- Transfers whose answers are all `ok` go through. -/
theorem transferAll_of_answersOk {bs : List Byte} {last : Byte} {s : State} (h : s.answersOk bs.length = true) :
    ∃ rx, transferAll last bs s = .got rx (runBytes bs s) := by
  induction bs generalizing last s with
  | nil => exact ⟨last, rfl⟩
  | cons b bs ih =>
    rw [transferAll_cons_ok (answersOk_next h), runBytes_cons]
    exact ih (answersOk_afterTransfer h)

theorem transfersOf_le_four (i : Instr) : transfersOf i ≤ 4 := by
  cases i <;> simp [transfersOf]

/-- An instruction that answers next on a transport whose next four transfers complete gave the faulted answer, or
answered at once, or went through its transfers. -/
theorem exec_next_cases_of_answersOk {i : Instr} {s t : State} (ha : s.answersOk 4 = true) (h : exec i s = .next t) :
    (s.fault = .transportError ∧ t = respond .transportError 0 s) ∨
    (s.fault = .none ∧ plan i s = .answer t) ∨
    (s.fault = .none ∧ ∃ start bytes close rx, plan i s = .run start bytes close ∧
      t = close rx (runBytes bytes start)) := by
  rcases exec_next_cases h with hfaulted | hanswer | ⟨hf, start, bytes, close, hp, -⟩
  · exact .inl hfaulted
  · exact .inr (.inl hanswer)
  · obtain ⟨hans, -⟩ := plan_start hp
    have hlen : bytes.length ≤ 4 := plan_length hp ▸ transfersOf_le_four i
    obtain ⟨rx, hrun⟩ := transferAll_of_answersOk (last := 0) (answersOk_mono hlen (answersOk_congr hans ha))
    rw [exec_of_unfaulted hf, hp, Plan.outcome, hrun] at h
    cases h
    exact .inr (.inr ⟨hf, start, bytes, close, rx, hp, rfl⟩)

/-- What an instruction leaves of the framer when its transfers complete. -/
theorem plan_run_framer {i : Instr} {s start : State} {bytes : List Byte} {close : Byte → State → State}
    (h : plan i s = .run start bytes close) (rx : Byte) :
    (close rx (runBytes bytes start)).fault = s.fault ∧ (close rx (runBytes bytes start)).cfg = s.cfg ∧
      (close rx (runBytes bytes start)).inputs = s.inputs := by
  obtain ⟨-, hfault, hcfg, hinputs, -⟩ := plan_start h
  obtain ⟨hcfg', -, hfault', -, hinputs', -⟩ := runBytes_spec bytes start
  obtain ⟨-, hfault'', hcfg'', hinputs'', -⟩ := plan_close h rx (runBytes bytes start)
  exact ⟨hfault''.trans (hfault'.trans hfault), hcfg''.trans (hcfg'.trans hcfg),
    hinputs''.trans (hinputs'.trans hinputs)⟩

/-! ### The device after a frame -/

/-- What every instruction but `XFER` keeps of a device that stays specified. -/
def Device.KeptBy (d : Device) (i : Instr) (e : Device) : Prop :=
  (∀ a, e.byteAt a = d.byteAt a) ∧
    (i ∉ [Instr.setModeByte, .setModeSequential, .setModePage] → (∀ c, i ≠ .wireWrsr c) →
      e.status = d.status ∧ e.statusKnown = d.statusKnown)

/-- An instruction that changes no more than the open burst keeps the device. -/
theorem Device.keptBy_of_endBurst_eq {i : Instr} {d e : Device} (h : e.endBurst = d.endBurst) : d.KeptBy i e :=
  ⟨Device.byteAt_eq_of_endBurst_eq h, fun _ _ => Device.status_eq_of_endBurst_eq h⟩

/-- A header that leaves the device specified changes the open burst only. -/
theorem headerEnd_endBurst {op : Operation} {a : WireAddr} {s : State} (h : (headerEnd op a s).dev.lost = false) :
    (headerEnd op a s).dev.endBurst = s.dev.endBurst := by
  obtain ⟨-, -, k, -, -, -, hdev⟩ := headerEnd_specified h
  rw [hdev]
  rfl

/-- `SEND_CMD` that leaves the device specified changes the open burst only. -/
theorem sendCmd_endBurst {op : Operation} {a : WireAddr} {addr : ReqAddr} {s : State}
    (h : (headerEnd op a (contractOfAddress addr s)).dev.lost = false) :
    (headerEnd op a (contractOfAddress addr s)).dev.endBurst = s.dev.endBurst := by
  obtain ⟨-, hl, -⟩ := headerEnd_specified h
  obtain ⟨-, hsame⟩ := contractOfAddress_specified hl
  rw [headerEnd_endBurst h, hsame]

/-- A status read that leaves the device specified changes the open burst only. -/
theorem statusRead_endBurst {d : Byte} {s : State} (h : (setCS .high (statusBytes opcRdsr d s)).dev.lost = false) :
    (setCS .high (statusBytes opcRdsr d s)).dev.endBurst = s.dev.endBurst := by
  obtain ⟨hc, hl⟩ := status_specified h
  rw [(statusRead_dev hc hl).1]
  rfl

/-- A status write that leaves the device specified keeps every byte. -/
theorem statusWrite_byteAt {d : Byte} {s : State} (h : (setCS .high (statusBytes opcWrsr d s)).dev.lost = false)
    (a : Nat) : (setCS .high (statusBytes opcWrsr d s)).dev.byteAt a = s.dev.byteAt a := by
  obtain ⟨hc, hl⟩ := status_specified h
  rw [statusWrite_dev hc hl]
  rfl

theorem plan_run_keptBy {i : Instr} {s start : State} {bytes : List Byte} {close : Byte → State → State}
    (h : plan i s = .run start bytes close) (hx : ∀ d, i ≠ .xfer d) (rx : Byte)
    (hl : (close rx (runBytes bytes start)).dev.lost = false) :
    s.dev.KeptBy i (close rx (runBytes bytes start)).dev := by
  cases i <;> simp only [plan] at h <;> cases h
  case sendCmd op addr =>
    exact Device.keptBy_of_endBurst_eq (sendCmd_endBurst (op := op) (a := wireAddr addr) (addr := addr) (s := s) hl)
  case wireRead a => exact Device.keptBy_of_endBurst_eq (headerEnd_endBurst (op := .read) (a := a) (s := s) hl)
  case wireWrite a => exact Device.keptBy_of_endBurst_eq (headerEnd_endBurst (op := .write) (a := a) (s := s) hl)
  case wireRdsrA a => exact Device.keptBy_of_endBurst_eq (headerEnd_endBurst (op := .readStatus) (a := a) (s := s) hl)
  case wireWrsrA a => exact Device.keptBy_of_endBurst_eq (headerEnd_endBurst (op := .writeStatus) (a := a) (s := s) hl)
  case readStatus => exact Device.keptBy_of_endBurst_eq (statusRead_endBurst (d := dummyTx) (s := s) hl)
  case wireRdsr d => exact Device.keptBy_of_endBurst_eq (statusRead_endBurst (d := d) (s := s) hl)
  case setModeByte | setModeSequential | setModePage =>
    exact ⟨statusWrite_byteAt (d := modeCode s.cfg _) (s := s) hl, fun hmode => absurd (by simp) hmode⟩
  case wireWrsr c => exact ⟨statusWrite_byteAt hl, fun _ hwrsr => absurd rfl (hwrsr c)⟩
  case xfer d => exact absurd rfl (hx d)

theorem plan_answer_keptBy {i : Instr} {s t : State} (h : plan i s = .answer t) (hl : t.dev.lost = false) :
    s.dev.KeptBy i t.dev := by
  obtain ⟨-, -, -, -, ⟨-, rfl⟩ | ⟨-, rfl⟩⟩ := plan_answer h
  · rw [respond_dev, setCS_high_dev] at hl ⊢
    exact Device.keptBy_of_endBurst_eq (Device.deselect_endBurst hl)
  · exact Device.keptBy_of_endBurst_eq rfl

/-- Settles O34: by the three ways an instruction ends when its transfers complete. -/
theorem nonStoringFrame : Obligations.NonStoringFrame := by
  intro i s t hx ha h
  rcases exec_next_cases_of_answersOk ha h with ⟨-, rfl⟩ | ⟨-, hp⟩ | ⟨-, start, bytes, close, rx, hp, rfl⟩
  · exact ⟨rfl, rfl, rfl, fun _ => Device.keptBy_of_endBurst_eq rfl⟩
  · obtain ⟨hfault, hcfg, hinputs, -⟩ := plan_answer hp
    exact ⟨hfault, hcfg, hinputs, plan_answer_keptBy hp⟩
  · obtain ⟨hfault, hcfg, hinputs⟩ := plan_run_framer hp rx
    exact ⟨hfault, hcfg, hinputs, plan_run_keptBy hp hx rx⟩

end Sys2Proof.Machine
end

section
/-! The composite memory operations (R44, R61). `WRITE_BURST` and `READ_BURST` are one shape, `burst`: a command, data
bytes, and the end. What a burst puts on the wire is said once for both; what its data bytes do to the device is an
induction over the bytes, for each kind of burst. -/

namespace Sys2Proof.Machine

open Sys2Proof

/-! ### Storing bytes at rising addresses -/

/-- The memory after bytes stored from an address on. -/
def Memory.storeAll : List Host.Cell → Nat → List Byte → List Host.Cell
  | m, _, [] => m
  | m, a, v :: vs => Memory.storeAll (Memory.store m a v) (a + 1) vs

/-- Bytes outside the run keep their value. -/
theorem Memory.lookup_storeAll_outside {m : List Host.Cell} {a b : Nat} {vs : List Byte}
    (h : b < a ∨ a + vs.length ≤ b) : Memory.lookup (Memory.storeAll m a vs) b = Memory.lookup m b := by
  induction vs generalizing m a with
  | nil => rfl
  | cons v vs ih =>
    rw [List.length_cons] at h
    rw [Memory.storeAll, ih (by omega), Memory.lookup_store_other (by omega)]

/-- Each byte of the run is read back at its address. -/
theorem Memory.lookup_storeAll_inside {m : List Host.Cell} {a k : Nat} {vs : List Byte} (hk : k < vs.length) :
    Memory.lookup (Memory.storeAll m a vs) (a + k) = some vs[k] := by
  induction vs generalizing m a k with
  | nil => cases hk
  | cons v vs ih =>
    rw [Memory.storeAll]
    cases k with
    | zero =>
      rw [Memory.lookup_storeAll_outside (by omega)]
      exact Memory.lookup_store_same
    | succ k =>
      rw [show a + (k + 1) = a + 1 + k by omega]
      exact ih (Nat.lt_of_succ_lt_succ hk)

/-- The device with bytes stored from an address on. -/
def Device.storeAll (d : Device) (a : Nat) (vs : List Byte) : Device := { d with mem := Memory.storeAll d.mem a vs }

theorem Device.byteAt_storeAll_outside {d : Device} {a b : Nat} {vs : List Byte} (h : b < a ∨ a + vs.length ≤ b) :
    (d.storeAll a vs).byteAt b = d.byteAt b := by
  simp [Device.byteAt, Device.storeAll, Memory.lookup_storeAll_outside h]

theorem Device.byteAt_storeAll_inside {d : Device} {a k : Nat} {vs : List Byte} (hk : k < vs.length) :
    (d.storeAll a vs).byteAt (a + k) = vs[k] := by
  simp [Device.byteAt, Device.storeAll, Memory.lookup_storeAll_inside hk]

/-! ### A run of XFERs at the framer -/

/-- The state after an `XFER` that completes. -/
def afterXfer (b : Byte) (s : State) : State := respond .ok (rxOf b s) (afterTransfer b s)

/-- The state after `XFER`s that complete, one a byte. -/
def runXfers : List Byte → State → State
  | [], s => s
  | b :: bs, s => runXfers bs (afterXfer b s)

theorem execAll_xfers {bs : List Byte} {s : State} (hf : s.fault = .none) (ha : s.allAnswersOk = true) :
    execAll (bs.map .xfer) s = .next (runXfers bs s) := by
  induction bs generalizing s with
  | nil => rfl
  | cons b bs ih =>
    rw [List.map_cons, execAll, exec_xfer_eq hf (answersOk_of_allAnswersOk 1 ha)]
    exact ih (s := afterXfer b s) hf (allAnswersOk_drop (n := 1) ha List.drop_one.symm)

/-- What a run of `XFER`s leaves of the framer, and what it puts on the wire. -/
theorem runXfers_framer (bs : List Byte) (s : State) :
    (runXfers bs s).cfg = s.cfg ∧ (runXfers bs s).fault = s.fault ∧
    (runXfers bs s).answers = s.answers.drop bs.length ∧
    wireBytes (runXfers bs s).trace = wireBytes s.trace ++ bs ∧
    csLevels (runXfers bs s).trace = csLevels s.trace := by
  induction bs generalizing s with
  | nil => exact ⟨rfl, rfl, rfl, (List.append_nil _).symm, rfl⟩
  | cons b bs ih =>
    obtain ⟨hcfg, hfault, hans, hwire, hcs⟩ := ih (afterXfer b s)
    refine ⟨hcfg, hfault, ?_, ?_, ?_⟩
    · rw [runXfers, hans]
      simp [afterXfer]
    · rw [runXfers, hwire]
      simp [afterXfer, wireBytes, Event.sent]
    · rw [runXfers, hcs]
      simp [afterXfer, csLevels, Event.level]

/-! ### A burst at the framer -/

/-- A command, an `XFER` for each byte, and the end. -/
def burst (op : Operation) (addr : ReqAddr) (bs : List Byte) : List Instr :=
  .sendCmd op addr :: (bs.map .xfer ++ [.endCmd])

theorem writeBurst_eq_burst (addr : ReqAddr) (vs : List Byte) : writeBurst addr vs = burst .write addr vs := rfl

theorem readBurst_eq_burst (addr : ReqAddr) (n : Nat) :
    readBurst addr n = burst .read addr (List.replicate n dummyTx) := by
  rw [readBurst, burst, List.map_replicate]

/-- The state after the command of a burst. -/
def burstHeader (op : Operation) (addr : ReqAddr) (s : State) : State :=
  respond .ok 0 (headerEnd op (wireAddr addr) (contractOfAddress addr s))

/-- The state after a burst. -/
def burstEnd (op : Operation) (addr : ReqAddr) (bs : List Byte) (s : State) : State :=
  respond .ok 0 (setCS .high (runXfers bs (burstHeader op addr s)))

/-- What the command of a burst leaves of the framer, and what it puts on the wire (R47, R50). -/
theorem burstHeader_framer (op : Operation) (addr : ReqAddr) (s : State) :
    (burstHeader op addr s).cfg = s.cfg ∧ (burstHeader op addr s).fault = s.fault ∧
    (burstHeader op addr s).responses = s.responses ++ [⟨.ok, 0⟩] ∧
    (burstHeader op addr s).answers = s.answers.drop 4 ∧
    wireBytes (burstHeader op addr s).trace = wireBytes s.trace ++
      [op.opcode, (addr >>> 16).setWidth 8, (addr >>> 8).setWidth 8, addr.setWidth 8] ∧
    csLevels (burstHeader op addr s).trace = csLevels s.trace ++ [.low] := by
  obtain ⟨r1, r2, r3, r4, htrace⟩ := headerEnd_trace op (wireAddr addr) (contractOfAddress addr s)
  refine ⟨?_, ?_, ?_, ?_, ?_, ?_⟩
  · simp [burstHeader, headerEnd_eq]
  · simp [burstHeader, headerEnd_eq]
  · simp [burstHeader, headerEnd_eq]
  · simp [burstHeader, headerEnd_eq]
  · rw [burstHeader, respond_trace, htrace, contractOfAddress_trace, wireBytes_append, addrByte1_wireAddr,
      addrByte2_wireAddr, addrByte3_wireAddr]
    rfl
  · rw [burstHeader, respond_trace, htrace, contractOfAddress_trace, csLevels_append]
    rfl

/-- A burst runs through on a transport that completes its transfers. -/
theorem execAll_burst {op : Operation} {addr : ReqAddr} {bs : List Byte} {s : State} (hf : s.fault = .none)
    (ha : s.allAnswersOk = true) : execAll (burst op addr bs) s = .next (burstEnd op addr bs s) := by
  obtain ⟨-, hfault, -, hans, -⟩ := burstHeader_framer op addr s
  have hxfers := execAll_xfers (bs := bs) (hfault.trans hf) (allAnswersOk_drop ha hans)
  obtain ⟨-, hfault', -⟩ := runXfers_framer bs (burstHeader op addr s)
  rw [burst, execAll, exec_sendCmd_eq hf (answersOk_of_allAnswersOk 4 ha)]
  change execAll (bs.map .xfer ++ [.endCmd]) (burstHeader op addr s) = _
  rw [execAll_append hxfers, execAll, exec_endCmd_eq (hfault'.trans (hfault.trans hf))]
  rfl

/-- What a burst leaves of the framer, and what it puts on the wire (R44, R99). -/
theorem burstEnd_framer (op : Operation) (addr : ReqAddr) (bs : List Byte) (s : State) :
    (burstEnd op addr bs s).cfg = s.cfg ∧ (burstEnd op addr bs s).fault = s.fault ∧
    (burstEnd op addr bs s).csN = .high ∧
    (burstEnd op addr bs s).answers = s.answers.drop (4 + bs.length) ∧
    wireBytes (burstEnd op addr bs s).trace = wireBytes s.trace ++
      ([op.opcode, (addr >>> 16).setWidth 8, (addr >>> 8).setWidth 8, addr.setWidth 8] ++ bs) ∧
    csLevels (burstEnd op addr bs s).trace = csLevels s.trace ++ [.low, .high] := by
  obtain ⟨hcfg, hfault, -, hans, hwire, hcs⟩ := burstHeader_framer op addr s
  obtain ⟨hcfg', hfault', hans', hwire', hcs'⟩ := runXfers_framer bs (burstHeader op addr s)
  refine ⟨hcfg'.trans hcfg, hfault'.trans hfault, rfl, ?_, ?_, ?_⟩
  · rw [burstEnd, respond_answers, setCS_answers, hans', hans, List.drop_drop]
  · rw [burstEnd, respond_trace, setCS_trace, wireBytes_append, hwire', hwire]
    simp [wireBytes, Event.sent]
  · rw [burstEnd, respond_trace, setCS_trace, csLevels_append, hcs', hcs]
    simp [csLevels, Event.level]

/-! ### The data bytes at the device -/

/-- The device is past the header of a burst of kind `k`, its next data byte goes to `a`, and `n` data bytes from there
on are specified (R28 to R31). -/
structure State.InBurst (k : BurstKind) (a n : Nat) (s : State) : Prop where
  lost    : s.dev.lost = false
  phase   : ∃ first, s.dev.phase = .data k first
  address : 0 < n → s.dev.dataAddress s.cfg.deviceCapacity = some a
  fits    : a + n ≤ s.cfg.deviceCapacity
  mode    : n ≤ 1 ∨ s.dev.mode = some .sequential

section
variable {k : BurstKind} {a n : Nat} {b : Byte} {s : State}

/-- A data byte that changes the device but for memory as `Device.advance` does goes on with the burst. -/
theorem State.InBurst.of_advance {freeCtr : Nat} {t : State} {m : List Host.Cell} (h : s.InBurst k a (n + 1))
    (hcfg : t.cfg = s.cfg) (hdev : t.dev = { s.dev.advance freeCtr k a with mem := m }) : t.InBurst k (a + 1) n := by
  have hmode : t.dev.mode = s.dev.mode := by
    rw [hdev]
    rfl
  have hphase : t.dev.phase = .data k false := by rw [hdev, Device.advance_phase]
  have hfits := h.fits
  refine ⟨by rw [hdev]; exact h.lost, ⟨false, hphase⟩, fun hn => ?_, by rw [hcfg]; omega, ?_⟩
  · have hseq : s.dev.mode = some .sequential := h.mode.resolve_left (by omega)
    refine Device.dataAddress_eq_some hphase ?_ (.inr (hmode.trans hseq)) (by rw [hcfg]; omega)
    rw [hdev]
    exact Device.advance_ctr_sequential (k := k) hseq
  · rw [hmode]
    exact h.mode.imp_left (by omega)

theorem State.InBurst.devAfter_write (h : s.InBurst .write a (n + 1)) : devAfter b s =
    { s.dev.advance (Config.freeCtr s.draws) .write a with mem := Memory.store s.dev.mem a b } := by
  obtain ⟨first, hp⟩ := h.phase
  exact Machine.devAfter_write h.lost hp (h.address n.succ_pos)

theorem State.InBurst.devAfter_read (h : s.InBurst .read a (n + 1)) :
    devAfter b s = s.dev.advance (Config.freeCtr s.draws) .read a := by
  obtain ⟨first, hp⟩ := h.phase
  exact Machine.devAfter_read h.lost hp (h.address n.succ_pos)

theorem State.InBurst.rxOf_read (h : s.InBurst .read a (n + 1)) : rxOf b s = s.dev.byteAt a := by
  obtain ⟨first, hp⟩ := h.phase
  exact Machine.rxOf_read h.lost hp (h.address n.succ_pos)

theorem State.InBurst.afterXfer_write (h : s.InBurst .write a (n + 1)) : (afterXfer b s).InBurst .write (a + 1) n :=
  h.of_advance (t := afterXfer b s) rfl h.devAfter_write

theorem State.InBurst.afterXfer_read (h : s.InBurst .read a (n + 1)) : (afterXfer b s).InBurst .read (a + 1) n :=
  h.of_advance (t := afterXfer b s) rfl h.devAfter_read

end

/-- The data bytes of a Write burst are stored in order, and the burst stays in its data phase. -/
theorem runXfers_write {a : Nat} {vs : List Byte} {s : State} (h : s.InBurst .write a vs.length) :
    (runXfers vs s).InBurst .write (a + vs.length) 0 ∧
    (runXfers vs s).dev.endBurst = s.dev.endBurst.storeAll a vs := by
  induction vs generalizing a s with
  | nil => exact ⟨h, rfl⟩
  | cons v vs ih =>
    obtain ⟨hburst, hdev⟩ := ih h.afterXfer_write
    refine ⟨by rwa [List.length_cons, Nat.add_comm vs.length, ← Nat.add_assoc], hdev.trans ?_⟩
    rw [show (afterXfer v s).dev = devAfter v s from rfl, h.devAfter_write]
    rfl

/-- The responses of a Read burst's data bytes are the memory bytes in order, and only the burst changes. -/
theorem runXfers_read {a : Nat} {bs : List Byte} {s : State} (h : s.InBurst .read a bs.length) :
    (runXfers bs s).InBurst .read (a + bs.length) 0 ∧ (runXfers bs s).dev.endBurst = s.dev.endBurst ∧
    (runXfers bs s).responses =
      s.responses ++ (List.range bs.length).map fun k => ⟨.ok, s.dev.byteAt (a + k)⟩ := by
  induction bs generalizing a s with
  | nil => exact ⟨h, rfl, (List.append_nil _).symm⟩
  | cons b bs ih =>
    obtain ⟨hburst, hdev, hresp⟩ := ih h.afterXfer_read
    have hsame : (devAfter b s).endBurst = s.dev.endBurst := by
      rw [h.devAfter_read]
      rfl
    refine ⟨by rwa [List.length_cons, Nat.add_comm bs.length, ← Nat.add_assoc], hdev.trans hsame, hresp.trans ?_⟩
    simp [afterXfer, h.rxOf_read, Device.byteAt_eq_of_endBurst_eq hsame, List.range_succ_eq_map, Function.comp_def,
      Nat.add_assoc, Nat.add_comm 1]

/-! ### A burst at the device -/

theorem State.ready_iff {s : State} : s.ready = true ↔
    s.fault = .none ∧ s.dev.lost = false ∧ s.csN = .high ∧ s.dev.phase = .idle := by
  simp [State.ready, State.safe, and_assoc]

/-- The conditions of `MemWrite` and `MemRead` for `n` bytes at `addr` (R44). -/
structure State.AllowsBurst (addr : ReqAddr) (n : Nat) (s : State) : Prop where
  cfg     : s.cfg.wf = true
  ready   : s.ready = true
  answers : s.allAnswersOk = true
  known   : s.dev.mode.isSome = true
  mode    : n ≤ 1 ∨ s.dev.mode = some .sequential
  start   : addr.toNat < s.cfg.deviceCapacity
  fits    : addr.toNat + n ≤ s.cfg.deviceCapacity

section
variable {op : Operation} {k : BurstKind} {addr : ReqAddr} {n : Nat} {s : State}

theorem State.AllowsBurst.execAll {bs : List Byte} (h : s.AllowsBurst addr n) :
    execAll (burst op addr bs) s = .next (burstEnd op addr bs s) :=
  execAll_burst (State.ready_iff.1 h.ready).1 h.answers

theorem State.AllowsBurst.burstHeader_dev (h : s.AllowsBurst addr n)
    (hop : (op = .read ∧ k = .read) ∨ (op = .write ∧ k = .write)) :
    (burstHeader op addr s).dev = { s.dev with phase := .data k true, ctr := some addr.toNat } := by
  obtain ⟨-, hl, hc, -⟩ := State.ready_iff.1 h.ready
  rw [burstHeader, respond_dev]
  exact sendCmd_dev h.cfg hop hl hc h.known h.start

/-- The command opens the burst at the address. -/
theorem State.AllowsBurst.inBurst (h : s.AllowsBurst addr n)
    (hop : (op = .read ∧ k = .read) ∨ (op = .write ∧ k = .write)) :
    (burstHeader op addr s).InBurst k addr.toNat n := by
  have hdev := h.burstHeader_dev hop
  obtain ⟨hcfg, -⟩ := burstHeader_framer op addr s
  obtain ⟨-, hl, -⟩ := State.ready_iff.1 h.ready
  have hmode : (burstHeader op addr s).dev.mode = s.dev.mode := by
    rw [hdev]
    rfl
  have hphase : (burstHeader op addr s).dev.phase = .data k true := by rw [hdev]
  refine ⟨by rw [hdev]; exact hl, ⟨true, hphase⟩, fun _ => ?_, hcfg ▸ h.fits, hmode ▸ h.mode⟩
  exact Device.dataAddress_eq_some hphase (by rw [hdev]) (.inl rfl) (hcfg ▸ h.start)

/-- Chip-select rising ends a burst in its data phase (R32). -/
theorem State.InBurst.deselect {a : Nat} (h : s.InBurst k a n) : s.dev.deselect = s.dev.endBurst := by
  obtain ⟨first, hp⟩ := h.phase
  exact Device.deselect_data h.lost hp

/-- The device after a Write burst: the bytes stored, and no burst open. -/
theorem burstEnd_dev_write {vs : List Byte} (h : s.AllowsBurst addr vs.length) :
    (burstEnd .write addr vs s).dev = s.dev.endBurst.storeAll addr.toNat vs := by
  obtain ⟨hburst, hdev⟩ := runXfers_write (h.inBurst (op := .write) (.inr ⟨rfl, rfl⟩))
  rw [burstEnd, respond_dev, setCS_high_dev, hburst.deselect, hdev, h.burstHeader_dev (.inr ⟨rfl, rfl⟩)]
  rfl

/-- The device after a Read burst: as before, and no burst open. -/
theorem burstEnd_dev_read {bs : List Byte} (h : s.AllowsBurst addr bs.length) :
    (burstEnd .read addr bs s).dev = s.dev.endBurst := by
  obtain ⟨hburst, hdev, -⟩ := runXfers_read (h.inBurst (op := .read) (.inl ⟨rfl, rfl⟩))
  rw [burstEnd, respond_dev, setCS_high_dev, hburst.deselect, hdev, h.burstHeader_dev (.inl ⟨rfl, rfl⟩)]
  rfl

/-- The responses of a Read burst: one for the command, the memory bytes, one for the end. -/
theorem burstEnd_responses_read {bs : List Byte} (h : s.AllowsBurst addr bs.length) :
    (burstEnd .read addr bs s).responses = s.responses ++ (⟨.ok, 0⟩ ::
      (List.range bs.length).map (fun k => ⟨.ok, s.dev.byteAt (addr.toNat + k)⟩) ++ [⟨.ok, 0⟩]) := by
  obtain ⟨-, -, hresp⟩ := runXfers_read (h.inBurst (op := .read) (.inl ⟨rfl, rfl⟩))
  obtain ⟨-, -, hheader, -⟩ := burstHeader_framer .read addr s
  have hsame : (burstHeader .read addr s).dev.endBurst = s.dev.endBurst := by
    rw [h.burstHeader_dev (.inl ⟨rfl, rfl⟩)]
    rfl
  rw [burstEnd, respond_responses, setCS_responses, hresp, hheader]
  simp [Device.byteAt_eq_of_endBurst_eq hsame]

/-- A burst that keeps the device specified, with no burst open, ends in a ready state. -/
theorem burstEnd_ready {bs : List Byte} {e : Device} (h : s.AllowsBurst addr n) (hdev : (burstEnd op addr bs s).dev = e)
    (hl : e.lost = s.dev.lost) (hp : e.phase = .idle) : (burstEnd op addr bs s).ready = true := by
  obtain ⟨hf, hlost, -⟩ := State.ready_iff.1 h.ready
  obtain ⟨-, hfault, hcs, -⟩ := burstEnd_framer op addr bs s
  exact State.ready_iff.2 ⟨hfault.trans hf, by rw [hdev, hl, hlost], hcs, by rw [hdev, hp]⟩

theorem burstEnd_ready_write {vs : List Byte} (h : s.AllowsBurst addr vs.length) :
    (burstEnd .write addr vs s).ready = true :=
  burstEnd_ready h (burstEnd_dev_write h) rfl rfl

theorem burstEnd_ready_read {bs : List Byte} (h : s.AllowsBurst addr bs.length) :
    (burstEnd .read addr bs s).ready = true :=
  burstEnd_ready h (burstEnd_dev_read h) rfl rfl

/-- After a Write burst another burst of the same length at the same address is allowed. -/
theorem State.AllowsBurst.burstEnd_write {vs : List Byte} (h : s.AllowsBurst addr vs.length) :
    (burstEnd .write addr vs s).AllowsBurst addr vs.length := by
  obtain ⟨hcfg, -, -, hans, -⟩ := burstEnd_framer .write addr vs s
  have hmode : (burstEnd .write addr vs s).dev.mode = s.dev.mode := by
    rw [burstEnd_dev_write h]
    rfl
  exact ⟨hcfg ▸ h.cfg, burstEnd_ready_write h, allAnswersOk_drop h.answers hans, hmode ▸ h.known, hmode ▸ h.mode,
    hcfg ▸ h.start, hcfg ▸ h.fits⟩

end

/-! ### The obligations -/

/-- Settles O49: the device after the burst is the old one with the bytes stored, by induction over the bytes. -/
theorem memWriteStoresBytes : Obligations.MemWriteStoresBytes := by
  intro addr vs s hcfg hready hans hknown hmode hstart hfits
  have h : s.AllowsBurst addr vs.length := ⟨hcfg, hready, hans, hknown, hmode, hstart, hfits⟩
  obtain ⟨-, -, -, -, hwire, hcs⟩ := burstEnd_framer .write addr vs s
  refine ⟨burstEnd .write addr vs s, h.execAll, burstEnd_ready_write h, ?_, ?_, ?_, ?_, hwire, hcs⟩ <;>
    rw [burstEnd_dev_write h]
  · exact fun k hk => Device.byteAt_storeAll_inside hk
  · exact fun a ha => Device.byteAt_storeAll_outside ha
  · rfl
  · rfl

/-- Settles O50: the device after the burst is the old one, and the responses are collected by induction over the
bytes sent. -/
theorem memReadReturnsBytes : Obligations.MemReadReturnsBytes := by
  intro addr n s hcfg hready hans hknown hmode hstart hfits
  have h : s.AllowsBurst addr (List.replicate n dummyTx).length := by
    rw [List.length_replicate]
    exact ⟨hcfg, hready, hans, hknown, hmode, hstart, hfits⟩
  obtain ⟨-, -, -, -, hwire, hcs⟩ := burstEnd_framer .read addr (List.replicate n dummyTx) s
  have hresp := burstEnd_responses_read h
  rw [List.length_replicate] at hresp
  rw [readBurst_eq_burst]
  refine ⟨_, h.execAll, burstEnd_ready_read h, hresp, ?_, ?_, ?_, hwire, hcs⟩ <;> rw [burstEnd_dev_read h]
  · exact s.dev.byteAt_endBurst
  · rfl
  · rfl

/-- Settles O51: the Write burst ends in a state from which the Read burst returns the bytes stored. -/
theorem writeThenReadReturnsBytes : Obligations.WriteThenReadReturnsBytes := by
  intro addr vs s hcfg hready hans hknown hmode hstart hfits
  obtain ⟨t, ht, -, hbytes, -⟩ := memWriteStoresBytes addr vs s hcfg hready hans hknown hmode hstart hfits
  have h : s.AllowsBurst addr vs.length := ⟨hcfg, hready, hans, hknown, hmode, hstart, hfits⟩
  obtain rfl : burstEnd .write addr vs s = t := by simpa [writeBurst_eq_burst, h.execAll] using ht
  obtain ⟨hcfg', hready', hans', hknown', hmode', hstart', hfits'⟩ := h.burstEnd_write
  obtain ⟨u, hu, -, hresp, -⟩ :=
    memReadReturnsBytes addr vs.length _ hcfg' hready' hans' hknown' hmode' hstart' hfits'
  have hread : (List.range vs.length).map
      (fun k => (⟨.ok, (burstEnd .write addr vs s).dev.byteAt (addr.toNat + k)⟩ : Response)) =
      vs.map fun v => ⟨.ok, v⟩ :=
    List.ext_getElem (by simp) fun k _ hk => by simp [hbytes k (by simpa using hk)]
  exact ⟨_, u, ht, hu, by rw [hresp, hread]⟩

end Sys2Proof.Machine
end

section
/-! The decoder read off the fields a word is built of (R54 to R56) and off the bytes of a frame (R47, R48, R53), and the
two encodings undone by it. -/

namespace Sys2Proof.Machine

open Sys2Proof

/-! ### The row of a request word, by its kind -/

section
variable (op mode : BitVec 2) (addr : ReqAddr) (data : Byte)

@[simp] theorem decodeRequest_kind_sendCmd :
    decodeRequest (reqWord 0#4 op mode addr data) = .sendCmd (operationOfCode op) addr := by
  simp [decodeRequest]

@[simp] theorem decodeRequest_kind_xfer : decodeRequest (reqWord 1#4 op mode addr data) = .xfer data := by
  simp [decodeRequest]

@[simp] theorem decodeRequest_kind_endCmd : decodeRequest (reqWord 2#4 op mode addr data) = .endCmd := by
  simp [decodeRequest]

@[simp] theorem decodeRequest_kind_setMode :
    decodeRequest (reqWord 3#4 op mode addr data) = setModeOfCode mode := by
  simp [decodeRequest]

@[simp] theorem decodeRequest_kind_readStatus :
    decodeRequest (reqWord 4#4 op mode addr data) = .readStatus := by
  simp [decodeRequest]

@[simp] theorem decodeRequest_kind5 : decodeRequest (reqWord 5#4 op mode addr data) = .reservedKind5 := by
  simp [decodeRequest]

theorem decodeRequest_kind6To7 {kind : BitVec 4} (h : kind = 6#4 ∨ kind = 7#4) :
    decodeRequest (reqWord kind op mode addr data) = .reservedKind6To7 kind := by
  rcases h with rfl | rfl <;> simp [decodeRequest]

theorem decodeRequest_kind8ToF {kind : BitVec 4} (h : 8#4 ≤ kind) :
    decodeRequest (reqWord kind op mode addr data) = .reservedKind8ToF kind := by
  have hne : kind ≠ 0#4 ∧ kind ≠ 1#4 ∧ kind ≠ 2#4 ∧ kind ≠ 3#4 ∧ kind ≠ 4#4 ∧ kind ≠ 5#4 ∧ kind ≠ 6#4 ∧
      kind ≠ 7#4 := by
    revert kind
    decide
  simp [decodeRequest, hne]

end

/-! ### The row of a wire frame, by its length -/

theorem encode_of_decodeFrame1 {opc : Byte} {i : Instr} (h : decodeFrame1 opc = .ok i) :
    encode i = .frame [opc] ∧ i.isRequest = false := by
  unfold decodeFrame1 at h
  split_ifs at h with hopc hopc <;> cases h
  all_goals exact ⟨hopc ▸ rfl, rfl⟩

theorem encode_of_decodeFrame2 {opc d : Byte} {i : Instr} (h : decodeFrame2 opc d = .ok i) :
    encode i = .frame [opc, d] ∧ i.isRequest = false := by
  unfold decodeFrame2 at h
  split_ifs at h with hopc hopc <;> cases h
  all_goals exact ⟨hopc ▸ rfl, rfl⟩

theorem encode_of_decodeFrame4 {opc : Byte} {a : WireAddr} {i : Instr} (h : decodeFrame4 opc a = .ok i) :
    encode i = .frame (headerBytes opc a) ∧ i.isRequest = false := by
  unfold decodeFrame4 at h
  split_ifs at h with hopc hopc hopc hopc <;> cases h
  all_goals exact ⟨hopc ▸ rfl, rfl⟩

/-- A header's bytes are read as its opcode and its address (R47). -/
@[simp] theorem decodeFrame_headerBytes (opc : Byte) (a : WireAddr) :
    decodeFrame (headerBytes opc a) = decodeFrame4 opc a := by
  simp only [headerBytes, decodeFrame, addrOfBytes_addrBytes]

/-- The header of the address three bytes spell is those bytes (R50). -/
@[simp] theorem headerBytes_addrOfBytes (opc b1 b2 b3 : Byte) :
    headerBytes opc (addrOfBytes b1 b2 b3) = [opc, b1, b2, b3] := by
  simp [headerBytes]

/-! ### The obligations on the decoder -/

/-- Settles O1: a request row by the lemma of its kind, a header by its address, the other frames by evaluation. -/
theorem decodeEncodeAgree : Obligations.DecodeEncodeAgree := by
  intro i hi
  cases i with
  | sendCmd op addr => simp [encode, decode]
  | xfer data => simp [encode, decode]
  | endCmd | setModeByte | setModeSequential | setModePage | setModeReserved | readStatus | reservedKind5 =>
    simp [encode, decode, bareRequest, setModeOfCode]
  | reservedKind6To7 k =>
    have hk : k = 6#4 ∨ k = 7#4 := by simpa [Instr.wellFormed] using hi
    exact congrArg Except.ok (decodeRequest_kind6To7 0 0 0 0 hk)
  | reservedKind8ToF k =>
    have hk : 8#4 ≤ k := of_decide_eq_true hi
    exact congrArg Except.ok (decodeRequest_kind8ToF 0 0 0 0 hk)
  | wireRead a | wireWrite a | wireRdsrA a | wireWrsrA a => exact decodeFrame_headerBytes _ a
  | wireWrsr d | wireRdsr d | wireHsread | wireRstio => rfl

/-- Settles O2: by the frame's length; no row has a frame of another. -/
theorem frameHasOneReading : Obligations.FrameHasOneReading := by
  intro bytes i h
  match bytes, h with
  | [opc], h => exact encode_of_decodeFrame1 h
  | [opc, d], h => exact encode_of_decodeFrame2 h
  | [opc, b1, b2, b3], h => exact headerBytes_addrOfBytes opc b1 b2 b3 ▸ encode_of_decodeFrame4 h

/-- Settles O3, by the lemma of each of the five kinds. -/
theorem unusedRequestFieldsIgnored : Obligations.UnusedRequestFieldsIgnored :=
  fun op mode addr data => ⟨decodeRequest_kind_sendCmd op mode addr data, decodeRequest_kind_xfer op mode addr data,
    decodeRequest_kind_endCmd op mode addr data, decodeRequest_kind_setMode op mode addr data,
    decodeRequest_kind_readStatus op mode addr data⟩

/-- Settles O4: a kind from 5 on is 5, or 6 or 7, or at least 8. -/
theorem reservedKindsDecodeToReservedRows : Obligations.ReservedKindsDecodeToReservedRows := by
  intro kind op mode addr data h
  split_ifs with h5 h67
  · rw [h5, decodeRequest_kind5]
  · exact decodeRequest_kind6To7 op mode addr data h67
  · have h8 : 8#4 ≤ kind := by
      revert kind
      decide
    exact decodeRequest_kind8ToF op mode addr data h8

/-- Settles O5: the codes by evaluation, the refusal by the plan of `SET_MODE` with the reserved mode. -/
theorem operandCodesAreTheTable : Obligations.OperandCodesAreTheTable := by
  refine ⟨rfl, rfl, rfl, rfl, rfl, rfl, rfl, rfl, fun op mode addr data =>
    ⟨decodeRequest_kind_sendCmd op mode addr data, decodeRequest_kind_setMode op mode addr data⟩, fun s hf => ?_⟩
  rw [exec_of_unfaulted hf]
  rfl

/-- Settles O6, by evaluating the decoder on the ten words. -/
theorem writtenOutWordsDecode : Obligations.WrittenOutWordsDecode := by
  unfold Obligations.WrittenOutWordsDecode
  decide

/-! ### The constants and the address bytes (R49 to R51) -/

/-- Settles O7: the Sequential byte is the configured code's. -/
theorem opcodeAndModeTables : Obligations.OpcodeAndModeTables := by
  refine ⟨rfl, rfl, rfl, rfl, fun cfg => ⟨rfl, rfl, ?_⟩⟩
  rw [modeCode]
  cases cfg.seqModeCode <;> rfl

/-- Cutting a word to its low byte is masking it with `0xFF`. -/
theorem toNat_setWidth_eq_toNat_mask (x : BitVec 32) : (x.setWidth 8).toNat = (x &&& 0xFF).toNat := by
  rw [BitVec.toNat_setWidth, BitVec.toNat_and]
  exact (Nat.and_two_pow_sub_one_eq_mod x.toNat 8).symm

/-- Settles O8: each address byte is a shifted address cut to a byte, and the three spell the wire address. -/
theorem addressBytesSpellTheAddress : Obligations.AddressBytesSpellTheAddress := by
  intro addr
  refine ⟨?_, ?_, ?_, ?_⟩
  · rw [addrByte1_wireAddr, toNat_setWidth_eq_toNat_mask]
  · rw [addrByte2_wireAddr, toNat_setWidth_eq_toNat_mask]
  · rw [addrByte3_wireAddr, toNat_setWidth_eq_toNat_mask]
  · rw [← addrOfBytes, addrOfBytes_addrBytes, wireAddr_toNat]

end Sys2Proof.Machine
end

section
/-! What stands in opcode position of a trace (R53). `OpcodesOk` carries over appended events, so it is enough to see
that the events of one instruction meet it: `CS(0)`, where an instruction records it, is followed by the first byte of
its run, completed or faulted. -/

namespace Sys2Proof.Machine

open Sys2Proof

/-! ### Traces with the four opcodes only -/

/-- Every byte in opcode position is one of the four, and no `CS(0)` still waits for its opcode. -/
def OpcodesOk (es : List Event) : Prop :=
  es.getLast? ≠ some (.cs .low) ∧ ∀ b ∈ opcodesOf es, b ∈ ([0x01, 0x02, 0x03, 0x05] : List Byte)

theorem opcodesOk_nil : OpcodesOk [] := ⟨nofun, nofun⟩

theorem opcodesOk_high : OpcodesOk [.cs .high] := ⟨nofun, nofun⟩

theorem OpcodesOk.append {es fs : List Event} (he : OpcodesOk es) (hf : OpcodesOk fs) : OpcodesOk (es ++ fs) := by
  obtain ⟨he1, he2⟩ := he
  obtain ⟨hf1, hf2⟩ := hf
  constructor
  · rw [List.getLast?_append]
    cases h : fs.getLast? with
    | none => exact he1
    | some e =>
      rw [h] at hf1
      exact hf1
  · rw [opcodesOf_append es fs he1]
    exact fun b hb => (List.mem_append.1 hb).elim (he2 b) (hf2 b)

/-- The events are transfers of these bytes, each completed or faulted. -/
def SendsBytes (bs : List Byte) (es : List Event) : Prop := es.map Event.sent = bs.map some

theorem sendsBytes_zipWith_t : ∀ {bs rxs : List Byte}, rxs.length = bs.length →
    SendsBytes bs (List.zipWith Event.t bs rxs)
  | [], [], _ => rfl
  | _ :: _, _ :: _, h => congrArg (_ :: ·) (sendsBytes_zipWith_t (Nat.succ.inj h))

/-- Transfers that complete, and one more that reports a bus fault. -/
theorem SendsBytes.append_tf {bs : List Byte} {es : List Event} (h : SendsBytes bs es) (tx : Byte) :
    SendsBytes (bs ++ [tx]) (es ++ [.tf tx]) := by
  rw [SendsBytes, List.map_append, List.map_append, h]
  rfl

/-- Transfers alone put nothing in opcode position. -/
theorem SendsBytes.opcodesOk : ∀ {bs : List Byte} {es : List Event}, SendsBytes bs es → OpcodesOk es
  | [], [], _ => opcodesOk_nil
  | b :: bs, e :: es, h => by
    obtain ⟨he, hes⟩ := List.cons.inj h
    have hone : OpcodesOk [e] := by
      cases e with
      | cs l => cases he
      | t tx rx => exact ⟨nofun, nofun⟩
      | tf tx => exact ⟨nofun, nofun⟩
    exact hone.append (SendsBytes.opcodesOk hes)

/-- `CS(0)` and transfers: the first byte sent stands in opcode position. -/
theorem SendsBytes.opcodesOk_select {b : Byte} {bs : List Byte} {es : List Event} (h : SendsBytes (b :: bs) es)
    (hb : b ∈ ([0x01, 0x02, 0x03, 0x05] : List Byte)) : OpcodesOk (.cs .low :: es) := by
  cases es with
  | nil => cases h
  | cons e es =>
    obtain ⟨he, hes⟩ := List.cons.inj h
    have htwo : OpcodesOk [.cs .low, e] := by
      cases e with
      | cs l => cases he
      | t tx rx => cases he; exact ⟨nofun, by simpa [opcodesOf] using hb⟩
      | tf tx => cases he; exact ⟨nofun, by simpa [opcodesOf] using hb⟩
    exact htwo.append (SendsBytes.opcodesOk hes)

/-! ### One instruction, one step -/

/-- The trace while an instruction's run is under way, when the bytes `pre` of it have been sent. -/
theorem opcodesOk_plan_run {i : Instr} {s start : State} {bytes pre : List Byte} {es : List Event}
    {close : Byte → State → State} (h : plan i s = .run start bytes close) (hs : OpcodesOk s.trace)
    (hpre : pre <+: bytes) (hne : pre ≠ []) (hes : SendsBytes pre es) : OpcodesOk (start.trace ++ es) := by
  rcases plan_opcode h with htrace | ⟨htrace, b, bs, rfl, hb⟩
  · rw [htrace]
    exact hs.append hes.opcodesOk
  · cases pre with
    | nil => exact absurd rfl hne
    | cons c pre =>
      obtain ⟨rfl, -⟩ := List.cons_prefix_cons.1 hpre
      rw [htrace, List.append_assoc]
      exact hs.append (hes.opcodesOk_select hb)

theorem exec_opcodesOk {i : Instr} {s t : State} (h : exec i s = .next t) (hs : OpcodesOk s.trace) :
    OpcodesOk t.trace := by
  rcases exec_next_cases h with
    ⟨-, rfl⟩ | ⟨-, hp⟩ | ⟨-, start, bytes, close, hp, ⟨rx, -, rfl⟩ | ⟨pre, b, post, hbytes, ⟨-, rfl⟩ | ⟨-, rfl⟩⟩⟩
  · exact hs
  · obtain ⟨-, -, -, -, ⟨-, rfl⟩ | ⟨-, rfl⟩⟩ := plan_answer hp
    · exact hs.append opcodesOk_high
    · exact hs
  · obtain ⟨-, -, -, -, -, -, hne, -⟩ := plan_start hp
    obtain ⟨-, -, -, -, -, -, -, rxs, hlen, htrace⟩ := runBytes_spec bytes start
    have hrun : OpcodesOk (runBytes bytes start).trace :=
      htrace ▸ opcodesOk_plan_run hp hs List.prefix_rfl hne (sendsBytes_zipWith_t hlen)
    obtain ⟨⟨hclose, -⟩ | ⟨hclose, -⟩, -⟩ := plan_close hp rx (runBytes bytes start)
    · exact hclose ▸ hrun
    · exact hclose ▸ hrun.append opcodesOk_high
  · obtain ⟨-, -, -, -, -, -, -, rxs, hlen, htrace⟩ := runBytes_spec pre start
    have hpre : pre ++ [b] <+: bytes := ⟨post, by rw [hbytes, List.append_assoc]; rfl⟩
    rw [takeTransportError_trace, useAnswer_trace, htrace, List.append_assoc]
    exact opcodesOk_plan_run hp hs hpre (by simp) ((sendsBytes_zipWith_t hlen).append_tf b)
  · exact opcodesOk_nil

/-- Settles O32: a reset empties the trace, a power-cycle leaves it, and an instruction keeps `OpcodesOk`. -/
theorem onlyTheFourOpcodesAreEmitted : Obligations.OnlyTheFourOpcodesAreEmitted := by
  intro s t hlast hopc h
  have hs : OpcodesOk s.trace := ⟨hlast, hopc⟩
  rcases step_next_cases h with rfl | ⟨rest, ⟨-, rfl⟩ | ⟨-, rfl⟩ | ⟨_, _, -, hexec⟩⟩
  · exact hs
  · exact opcodesOk_nil
  · exact hs
  · exact exec_opcodesOk (s := { s with inputs := rest }) hexec hs

/-- What is presented and decodes is run, with its input taken (R62). -/
theorem step_of_decode {s : State} {p : Presented} {rest : List Input} {i : Instr}
    (hin : s.inputs = .present p :: rest) (hd : decode p = .ok i) : step s = exec i { s with inputs := rest } := by
  simp only [step, fetch, takeInput, hin, hd]

/-- Settles O30: the one-byte frames decode to the two rows, which are refused in every state. -/
theorem reservedOpcodesHaveNoStep : Obligations.ReservedOpcodesHaveNoStep := by
  refine fun s => ⟨rfl, rfl, fun opc rest hopc hin => ?_⟩
  rcases hopc with rfl | rfl
  · exact step_of_decode (i := .wireHsread) hin rfl
  · exact step_of_decode (i := .wireRstio) hin rfl

end Sys2Proof.Machine
end

section
/-! The response of a request (R57): its word, and how many an instruction gives. -/

namespace Sys2Proof.Machine

open Sys2Proof

/-! ### The response word -/

theorem Response.word_data (r : Response) : r.word.extractLsb' 0 8 = r.data :=
  BitVec.extractLsb'_append_eq_right

theorem Response.word_err (r : Response) : r.word.extractLsb' 8 2 = r.err.code :=
  BitVec.extractLsb'_append_eq_left

/-! ### One response a request -/

/-- What R57 allows as the response to an instruction: data for `XFER` and `READ_STATUS` with OK only, and OK for an
instruction that has an encoding only. -/
def Response.Fits (i : Instr) (r : Response) : Prop :=
  (r.err ≠ .ok ∨ ((∀ d, i ≠ .xfer d) ∧ i ≠ .readStatus) → r.data = 0) ∧ (r.err = .ok → i.wellFormed = true)

theorem Response.fits_of_error {err : ErrCode} (herr : err ≠ .ok) (i : Instr) : Response.Fits i ⟨err, 0⟩ :=
  ⟨fun _ => rfl, fun hok => absurd hok herr⟩

theorem Response.fits_of_noData {i : Instr} (hwf : i.wellFormed = true) : Response.Fits i ⟨.ok, 0⟩ :=
  ⟨fun _ => rfl, fun _ => hwf⟩

theorem Response.fits_xfer (data rx : Byte) : Response.Fits (.xfer data) ⟨.ok, rx⟩ :=
  ⟨fun hno => hno.elim (absurd rfl) fun ⟨hx, _⟩ => absurd rfl (hx data), fun _ => rfl⟩

theorem Response.fits_readStatus (rx : Byte) : Response.Fits .readStatus ⟨.ok, rx⟩ :=
  ⟨fun hno => hno.elim (absurd rfl) fun ⟨_, hr⟩ => absurd rfl hr, fun _ => rfl⟩

/-- A request whose transfers all go through is answered once, as R57 allows. -/
theorem plan_close_response {i : Instr} {s start : State} {bytes : List Byte} {close : Byte → State → State}
    (h : plan i s = .run start bytes close) (hi : i.isRequest = true) (rx : Byte) (u : State) :
    ∃ r : Response, (close rx u).responses = u.responses ++ [r] ∧ r.Fits i := by
  cases i <;> simp only [plan] at h <;> cases h
  case sendCmd | setModeByte | setModeSequential | setModePage => exact ⟨_, rfl, Response.fits_of_noData rfl⟩
  case xfer data => exact ⟨_, rfl, Response.fits_xfer data rx⟩
  case readStatus => exact ⟨_, rfl, Response.fits_readStatus rx⟩
  case wireRead | wireWrite | wireWrsr | wireRdsr | wireRdsrA | wireWrsrA => cases hi

theorem plan_run_responses {i : Instr} {s start : State} {bytes : List Byte} {close : Byte → State → State}
    (h : plan i s = .run start bytes close) (pre : List Byte) : (runBytes pre start).responses = s.responses := by
  obtain ⟨-, -, -, hrun, -⟩ := runBytes_spec pre start
  obtain ⟨-, -, -, -, hstart, -⟩ := plan_start h
  exact hrun.trans hstart

/-- A request that no reset abandons is answered exactly once, in a faulted state and after a bus fault too. -/
theorem exec_one_response {i : Instr} {s t : State} (hi : i.isRequest = true) (hr : .reset ∉ s.answers)
    (h : exec i s = .next t) : ∃ r : Response, t.responses = s.responses ++ [r] ∧ r.Fits i := by
  rcases exec_next_cases h with
    ⟨-, rfl⟩ | ⟨-, hp⟩ | ⟨-, start, bytes, close, hp, ⟨rx, -, rfl⟩ | ⟨pre, b, post, -, ⟨-, rfl⟩ | ⟨hreset, -⟩⟩⟩
  · exact ⟨_, rfl, Response.fits_of_error (by decide) i⟩
  · obtain ⟨-, -, -, -, ⟨rfl, rfl⟩ | ⟨-, rfl⟩⟩ := plan_answer hp
    · exact ⟨_, rfl, Response.fits_of_noData rfl⟩
    · exact ⟨_, rfl, Response.fits_of_error (by decide) i⟩
  · rw [← plan_run_responses hp bytes]
    exact plan_close_response hp hi rx (runBytes bytes start)
  · rw [takeTransportError_responses, useAnswer_responses, plan_run_responses hp]
    exact ⟨_, rfl, Response.fits_of_error (by decide) i⟩
  · exact absurd (reset_mem_answers hp hreset) hr

/-- Settles O36: the word by its two fields, the count by what an instruction's plan adds to the responses. -/
theorem everyRequestHasOneResponse : Obligations.EveryRequestHasOneResponse := by
  refine ⟨fun r => ⟨r.word_data, ?_⟩, fun i s t hi hr h => exec_one_response hi hr h⟩
  rw [r.word_err]
  cases r.err <;> rfl

end Sys2Proof.Machine
end

section
/-! The requests of the command framing (R62 to R66), one by one: what each puts on the wire, and what it leaves of the
device. A header changes the framer alike whatever the device is, so `SEND_CMD` and its wire row differ in the device
only. -/

namespace Sys2Proof.Machine

open Sys2Proof

/-- Settles O9, by the step of what decodes. -/
theorem stepRunsDecodedInstruction : Obligations.StepRunsDecodedInstruction :=
  fun _ _ _ _ hin hd _ => step_of_decode hin hd

/-- Settles O17: `END_CMD` uses no transfer, so only the fault record can keep it from completing. -/
theorem endCmdRaisesChipSelect : Obligations.EndCmdRaisesChipSelect :=
  fun _ hf => ⟨_, exec_endCmd_eq hf, rfl, rfl, hf, rfl, rfl, rfl, rfl, rfl⟩

/-- Settles O16, by the next state of an `XFER` that completes. -/
theorem xferTransfersOneByte : Obligations.XferTransfersOneByte :=
  fun _ _ hf ha => ⟨_, _, exec_xfer_eq hf ha, rfl, rfl, rfl, hf, rfl, rfl, List.drop_one.symm, rfl⟩

/-! ### A header at the framer -/

/-- The events of a header that completes when `n` bytes have been drawn before it (R45, R47). -/
def headerEvents (op : Operation) (a : WireAddr) (n : Nat) : List Event :=
  [.cs .low, .t op.opcode (Config.freeRx n), .t (addrByte1 a) (Config.freeRx (n + 1)),
    .t (addrByte2 a) (Config.freeRx (n + 2)), .t (addrByte3 a) (Config.freeRx (n + 3))]

/-- The whole state after a header; the device alone is left unsaid. -/
theorem headerEnd_framer (op : Operation) (a : WireAddr) (s : State) : headerEnd op a s =
    { s with csN := .low, trace := s.trace ++ headerEvents op a s.draws, dev := (headerEnd op a s).dev,
             answers := s.answers.drop 4, draws := s.draws + 4 } := by
  have htrace : (headerEnd op a s).trace = s.trace ++ headerEvents op a s.draws := headerEnd_trace_free op a s
  obtain ⟨hcfg, hcs, hfault, hresp, hinputs, hans, hdraws, -⟩ :=
    runBytes_spec (headerBytes op.opcode a) (headerStart op s)
  rw [← headerEnd] at hcfg hcs hfault hresp hinputs hans hdraws
  simp only [headerStart_cfg, headerStart_csN, headerStart_fault, headerStart_responses, headerStart_inputs,
    headerStart_answers, headerStart_draws] at hcfg hcs hfault hresp hinputs hans hdraws
  rw [← hcfg, ← hcs, ← hfault, ← hresp, ← hinputs, ← htrace]
  exact congrArg₂ (fun x y => { headerEnd op a s with answers := x, draws := y }) hans hdraws

/-- The address check of `SEND_CMD` changes what a header does at the device only. -/
theorem headerEnd_contractOfAddress (op : Operation) (a : WireAddr) (addr : ReqAddr) (s : State) :
    headerEnd op a (contractOfAddress addr s) =
      { headerEnd op a s with dev := (headerEnd op a (contractOfAddress addr s)).dev } := by
  rw [headerEnd_framer op a (contractOfAddress addr s), headerEnd_framer op a s]
  simp

/-- Settles O14: the header's events are known, and its address bytes are those of the request's address. -/
theorem sendCmdSendsHeader : Obligations.SendCmdSendsHeader := by
  intro op addr s hf ha
  have h := exec_sendCmd_eq (op := op) (addr := addr) hf ha
  rw [headerEnd_contractOfAddress, headerEnd_framer] at h
  refine ⟨_, Config.freeRx s.draws, Config.freeRx (s.draws + 1), Config.freeRx (s.draws + 2),
    Config.freeRx (s.draws + 3), h, ?_, rfl, hf, rfl, rfl, rfl, rfl, rfl⟩
  rw [← addrByte1_wireAddr, ← addrByte2_wireAddr, ← addrByte3_wireAddr]
  rfl

/-! ### A command and its wire row -/

/-- The wire row of an operation's header (R47, R49). -/
def wireRow : Operation → WireAddr → Instr
  | .read, a => .wireRead a
  | .write, a => .wireWrite a
  | .readStatus, a => .wireRdsrA a
  | .writeStatus, a => .wireWrsrA a

theorem exec_wireRow_eq {op : Operation} {a : WireAddr} {s : State} (hf : s.fault = .none)
    (ha : s.answersOk 4 = true) : exec (wireRow op a) s = .next (headerEnd op a s) := by
  obtain ⟨rx, hsend⟩ := sendHeader_ok (op := op) (a := a) ha
  have hrow : exec (wireRow op a) s = unlessFaulted s fun s => finishFrame (sendHeader op a s) := by
    cases op <;> rfl
  rw [hrow, unlessFaulted_of_none hf, hsend, finishFrame_got]

/-- A command inside an open burst, or at an unspecified device, leaves it unspecified from chip-select on. -/
theorem headerStart_lost {op : Operation} {s : State} (h : s.csN = .low ∨ s.dev.lost = true) :
    (headerStart op s).dev.lost = true := by
  cases op with
  | readStatus | writeStatus => rfl
  | read | write => exact setCS_low_lost h

/-- Settles O31: the address check is all that `SEND_CMD` adds to the frame of its wire row. -/
theorem sendCmdIsItsWireRow : Obligations.SendCmdIsItsWireRow := by
  intro op addr s t hf ha h
  have hrow : exec (wireRow op (wireAddr addr)) s = .next t := by cases op <;> exact h
  rw [exec_wireRow_eq hf ha] at hrow
  cases hrow
  refine ⟨(headerEnd op (wireAddr addr) (contractOfAddress addr s)).dev, ?_, ?_⟩
  · rw [exec_sendCmd_eq hf ha, headerEnd_contractOfAddress]
    rfl
  · split
    · rename_i hcap
      rw [contractOfAddress_of_lt hcap]
    · rename_i hcap
      rw [contractOfAddress_of_ge hcap]
      exact headerEnd_lost (headerStart_lost (.inr rfl))

/-! ### Misuse -/

/-- `SET_MODE` of a mode (R70). -/
def setModeOf : TransferMode → Instr
  | .byte => .setModeByte
  | .sequential => .setModeSequential
  | .page => .setModePage

theorem exec_setModeOf_eq {m : TransferMode} {s : State} (hf : s.fault = .none) (ha : s.answersOk 2 = true) :
    exec (setModeOf m) s = .next (respond .ok 0 (setCS .high (statusBytes opcWrsr (modeCode s.cfg m) s))) := by
  rw [← setMode_eq hf ha]
  cases m <;> rfl

/-- The requests that open an item: a command, and the self-closing status requests. -/
theorem startsItem_cases {i : Instr} (h : startsItem i = true) :
    (∃ op addr, i = .sendCmd op addr) ∨ (∃ m, i = setModeOf m) ∨ i = .readStatus := by
  cases i with
  | sendCmd op addr => exact .inl ⟨op, addr, rfl⟩
  | setModeByte => exact .inr (.inl ⟨.byte, rfl⟩)
  | setModeSequential => exact .inr (.inl ⟨.sequential, rfl⟩)
  | setModePage => exact .inr (.inl ⟨.page, rfl⟩)
  | readStatus => exact .inr (.inr rfl)
  | _ => cases h

/-- The address check of `SEND_CMD` repairs no misuse. -/
theorem contractOfAddress_misuse {addr : ReqAddr} {s : State} (h : s.csN = .low ∨ s.dev.lost = true) :
    (contractOfAddress addr s).csN = .low ∨ (contractOfAddress addr s).dev.lost = true := by
  by_cases hcap : addr.toNat < s.cfg.deviceCapacity
  · rwa [contractOfAddress_of_lt hcap]
  · rw [contractOfAddress_of_ge hcap]
    exact .inr rfl

/-- Settles O40: chip-select going low is what loses the device, in a header and in a status frame alike. -/
theorem misuseLosesDevice : Obligations.MisuseLosesDevice := by
  intro i s t hi hf ha hmisuse h
  have ha2 := answersOk_mono (by decide : 2 ≤ 4) ha
  rcases startsItem_cases hi with ⟨op, addr, rfl⟩ | ⟨m, rfl⟩ | rfl
  · rw [exec_sendCmd_eq hf ha] at h
    cases h
    rw [respond_dev]
    exact headerEnd_lost (headerStart_lost (contractOfAddress_misuse hmisuse))
  · rw [exec_setModeOf_eq hf ha2] at h
    cases h
    rw [respond_dev]
    exact statusBytes_lost (setCS_low_lost hmisuse)
  · rw [exec_readStatus_eq hf ha2] at h
    cases h
    rw [respond_dev]
    exact statusBytes_lost (setCS_low_lost hmisuse)

/-! ### The frame of XFER -/

/-- A byte that leaves the device specified was a data byte: it keeps the status register, and it stores at the store
address, where there is one, and nothing else (R27 to R31). -/
theorem devAfter_specified {tx : Byte} {s : State} (hctr : s.dev.counterWf s.cfg.deviceCapacity = true)
    (hl : (devAfter tx s).lost = false) :
    (devAfter tx s).status = s.dev.status ∧ (devAfter tx s).statusKnown = s.dev.statusKnown ∧
    (devAfter tx s).epoch = s.dev.epoch ∧
    ((s.dev.storeAddress s.cfg.deviceCapacity = none ∧ (devAfter tx s).mem = s.dev.mem) ∨
      ∃ a, s.dev.storeAddress s.cfg.deviceCapacity = some a ∧
        (devAfter tx s).mem = Memory.store s.dev.mem a tx) := by
  have hlost : s.dev.lost = false := by
    cases hlost : s.dev.lost
    · rfl
    · rw [devAfter_of_lost hlost] at hl
      cases hl
  cases ha : s.dev.dataAddress s.cfg.deviceCapacity with
  | none =>
    rw [devAfter_lost hctr ha] at hl
    cases hl
  | some a =>
    obtain ⟨-, -, k, first, hp, -⟩ := Device.dataAddress_spec ha
    cases k with
    | read =>
      rw [devAfter_read hlost hp ha]
      exact ⟨rfl, rfl, rfl, .inl ⟨Device.storeAddress_read hp, rfl⟩⟩
    | write =>
      rw [devAfter_write hlost hp ha]
      exact ⟨rfl, rfl, rfl, .inr ⟨a, (Device.storeAddress_write hlost hp).trans ha, rfl⟩⟩

/-- Settles O33: a faulted framer does nothing, and a byte that completes stores at the store address only. -/
theorem xferFrame : Obligations.XferFrame := by
  intro data s t ha h
  cases hf : s.fault with
  | transportError =>
    obtain ⟨h1, h2⟩ := emitted_of_next h
    rw [exec_of_faulted hf h1 h2] at h
    cases h
    exact ⟨rfl, hf, rfl, rfl, nofun⟩
  | none =>
    rw [exec_xfer_eq hf ha] at h
    cases h
    refine ⟨rfl, hf, rfl, rfl, fun _ hl hs => ?_⟩
    obtain ⟨-, -, hctr, -⟩ := State.inv_iff.1 hs
    obtain ⟨hstatus, hknown, hepoch, ⟨hstore, hmem⟩ | ⟨a, hstore, hmem⟩⟩ := devAfter_specified (tx := data) hctr hl
    · refine ⟨hstatus, hknown, fun b => ?_⟩
      rw [hstore, if_neg nofun]
      exact Device.byteAt_congr hmem hepoch b
    · refine ⟨hstatus, hknown, fun b => ?_⟩
      rw [hstore]
      by_cases hb : b = a
      · rw [hb, if_pos rfl]
        exact Device.byteAt_store_same hmem
      · rw [if_neg fun heq => hb (Option.some.inj heq).symm]
        exact Device.byteAt_store_other hmem hepoch hb

end Sys2Proof.Machine
end

section
/-! The client contract (R66) as a relation, `Contract.Move`, and what a client that keeps it does to the device: each
move carries `State.Keeps`, and so do a framer reset and a power-cycle where the contract has them. -/

namespace Sys2Proof.Machine

open Sys2Proof

/-! ### The moves of the contract -/

/-- The requests a well-formed sequence has, each with where the client is before and after it (R66). -/
inductive Contract.Move (cap : Nat) : Contract → Instr → Contract → Prop
  | sendCmd {mode : Option TransferMode} {op : Operation} {addr : ReqAddr} (hop : op = .read ∨ op = .write)
      (hmode : mode.isSome = true) (haddr : addr.toNat < cap) :
      Move cap ⟨mode, none⟩ (.sendCmd op addr) ⟨mode, some (addr.toNat, 0)⟩
  | xfer {mode : Option TransferMode} {a n : Nat} {data : Byte} (hfits : a + (n + 1) ≤ cap)
      (hmode : n = 0 ∨ mode = some .sequential) :
      Move cap ⟨mode, some (a, n)⟩ (.xfer data) ⟨mode, some (a, n + 1)⟩
  | endCmd {mode : Option TransferMode} {a n : Nat} : Move cap ⟨mode, some (a, n)⟩ .endCmd ⟨mode, none⟩
  | setMode {mode : Option TransferMode} (m : TransferMode) : Move cap ⟨mode, none⟩ (setModeOf m) ⟨some m, none⟩
  | readStatus {mode : Option TransferMode} : Move cap ⟨mode, none⟩ .readStatus ⟨mode, none⟩

/-- A self-closing item comes between bursts only. -/
theorem Contract.between_eq_some {c d e : Contract} (h : c.between d = some e) : c.burst = none ∧ e = d := by
  unfold Contract.between at h
  split at h
  · rename_i hb
    cases h
    exact ⟨Option.isNone_iff_eq_none.1 hb, rfl⟩
  · cases h

/-- What the contract allows is a move. -/
theorem Contract.move_of_next {cap : Nat} {c c' : Contract} {i : Instr} (h : c.next cap i = some c') :
    Move cap c i c' := by
  obtain ⟨mode, burst⟩ := c
  cases i with
  | sendCmd op addr =>
    simp only [Contract.next, Option.ite_none_right_eq_some, Bool.and_eq_true, Bool.or_eq_true, beq_iff_eq,
      decide_eq_true_eq, Option.isNone_iff_eq_none] at h
    obtain ⟨⟨⟨⟨rfl, hop⟩, hmode⟩, haddr⟩, h⟩ := h
    cases h
    exact .sendCmd hop hmode haddr
  | xfer data =>
    cases burst with
    | none => cases h
    | some b =>
      simp only [Contract.next, Option.ite_none_right_eq_some, Bool.and_eq_true, Bool.or_eq_true, beq_iff_eq,
        decide_eq_true_eq] at h
      obtain ⟨⟨hfits, hmode⟩, h⟩ := h
      cases h
      exact .xfer hfits hmode
  | endCmd =>
    cases burst with
    | none => cases h
    | some b =>
      cases h
      exact .endCmd
  | setModeByte =>
    obtain ⟨rfl, rfl⟩ := Contract.between_eq_some h
    exact .setMode .byte
  | setModeSequential =>
    obtain ⟨rfl, rfl⟩ := Contract.between_eq_some h
    exact .setMode .sequential
  | setModePage =>
    obtain ⟨rfl, rfl⟩ := Contract.between_eq_some h
    exact .setMode .page
  | readStatus =>
    obtain ⟨rfl, rfl⟩ := Contract.between_eq_some h
    exact .readStatus
  | _ => cases h

/-- What every move carries, a sequence that keeps the contract carries; `P` may speak of the requests run so far. -/
theorem Contract.execAll_of_run {cap : Nat} {P : List Instr → Contract → State → Prop}
    (hmove : ∀ {pre c i c' s}, P pre c s → Move cap c i c' → ∃ t, exec i s = .next t ∧ P (pre ++ [i]) c' t)
    {is : List Instr} : ∀ {pre : List Instr} {c c' : Contract} {s : State}, Contract.run cap c is = some c' →
      P pre c s → ∃ t, execAll is s = .next t ∧ P (pre ++ is) c' t := by
  induction is with
  | nil =>
    intro pre c c' s h hs
    cases h
    exact ⟨s, rfl, by rwa [List.append_nil]⟩
  | cons i is ih =>
    intro pre c c' s h hs
    unfold Contract.run at h
    cases hnext : c.next cap i with
    | none =>
      rw [hnext] at h
      cases h
    | some d =>
      rw [hnext] at h
      obtain ⟨u, hu, hpu⟩ := hmove hs (Contract.move_of_next hnext)
      obtain ⟨t, ht, hpt⟩ := ih h hpu
      rw [execAll, hu]
      exact ⟨t, ht, by rwa [List.append_assoc] at hpt⟩

/-! ### A transport that completes every transfer -/

/-- What an instruction leaves of the framer on such a transport. -/
theorem exec_framer_of_allAnswersOk {i : Instr} {s t : State} (ha : s.allAnswersOk = true) (h : exec i s = .next t) :
    t.fault = s.fault ∧ t.cfg = s.cfg ∧ t.inputs = s.inputs ∧ t.allAnswersOk = true := by
  rcases exec_next_cases_of_answersOk (answersOk_of_allAnswersOk 4 ha) h with
    ⟨-, rfl⟩ | ⟨-, hp⟩ | ⟨-, start, bytes, close, rx, hp, rfl⟩
  · exact ⟨rfl, rfl, rfl, ha⟩
  · obtain ⟨hfault, hcfg, hinputs, hans, -⟩ := plan_answer hp
    exact ⟨hfault, hcfg, hinputs, allAnswersOk_drop (n := 0) ha hans⟩
  · obtain ⟨hfault, hcfg, hinputs⟩ := plan_run_framer hp rx
    obtain ⟨hstart, -⟩ := plan_start hp
    obtain ⟨-, -, -, -, -, hrun, -⟩ := runBytes_spec bytes start
    obtain ⟨-, -, -, -, hclose, -⟩ := plan_close hp rx (runBytes bytes start)
    exact ⟨hfault, hcfg, hinputs, allAnswersOk_drop ha (hclose.trans (hrun.trans (by rw [hstart])))⟩

/-! ### The open burst at the device -/

section
variable {k : BurstKind} {a n : Nat} {b : Byte} {s : State}

theorem State.InBurst.afterXfer (h : s.InBurst k a (n + 1)) : (afterXfer b s).InBurst k (a + 1) n := by
  cases k with
  | read => exact h.afterXfer_read
  | write => exact h.afterXfer_write

theorem State.InBurst.withInputs (h : s.InBurst k a n) (rest : List Input) :
    State.InBurst k a n { s with inputs := rest } :=
  ⟨h.lost, h.phase, h.address, h.fits, h.mode⟩

theorem State.InBurst.afterXfer_mode (h : s.InBurst k a (n + 1)) : (Machine.afterXfer b s).dev.mode = s.dev.mode := by
  change (devAfter b s).mode = s.dev.mode
  cases k with
  | read =>
    rw [h.devAfter_read]
    rfl
  | write =>
    rw [h.devAfter_write]
    rfl

end

/-- `n` data bytes into a burst that began at `a`, the device has every further data byte the contract allows
specified (R28 to R31). -/
structure State.OpenBurst (k : BurstKind) (a n : Nat) (s : State) : Prop where
  now  : s.InBurst k (a + n) 0
  more : ∀ room, a + n + room ≤ s.cfg.deviceCapacity → (n + room ≤ 1 ∨ s.dev.mode = some .sequential) →
    s.InBurst k (a + n) room

/-- A data byte the contract allows goes on with the burst. -/
theorem State.OpenBurst.afterXfer {k : BurstKind} {a n : Nat} {b : Byte} {s : State} (h : s.OpenBurst k a n)
    (hfits : a + (n + 1) ≤ s.cfg.deviceCapacity) (hmode : n = 0 ∨ s.dev.mode = some .sequential) :
    (afterXfer b s).OpenBurst k a (n + 1) ∧ (Machine.afterXfer b s).dev.mode = s.dev.mode := by
  have hnext : s.InBurst k (a + n) 1 := h.more 1 hfits (hmode.imp_left (by omega))
  have hsame := hnext.afterXfer_mode (b := b)
  refine ⟨⟨hnext.afterXfer, fun room hroom hm => ?_⟩, hsame⟩
  have hcfg : (Machine.afterXfer b s).cfg = s.cfg := rfl
  rw [hcfg] at hroom
  rw [hsame] at hm
  exact (h.more (room + 1) (by omega) (hm.imp_left (by omega))).afterXfer

/-- The command opens the burst. -/
theorem openBurst_burstHeader {op : Operation} {addr : ReqAddr} {s : State} (hcfg : s.cfg.wf = true)
    (hop : op = .read ∨ op = .write) (hl : s.dev.lost = false) (hc : s.csN = .high) (hm : s.dev.mode.isSome = true)
    (ha : addr.toNat < s.cfg.deviceCapacity) :
    ∃ k, (burstHeader op addr s).OpenBurst k addr.toNat 0 ∧ (burstHeader op addr s).dev.mode = s.dev.mode := by
  obtain ⟨k, hk⟩ : ∃ k : BurstKind, (op = .read ∧ k = .read) ∨ (op = .write ∧ k = .write) := by
    rcases hop with rfl | rfl
    · exact ⟨.read, .inl ⟨rfl, rfl⟩⟩
    · exact ⟨.write, .inr ⟨rfl, rfl⟩⟩
  have hdev : (burstHeader op addr s).dev = { s.dev with phase := .data k true, ctr := some addr.toNat } := by
    rw [burstHeader, respond_dev]
    exact sendCmd_dev hcfg hk hl hc hm ha
  obtain ⟨hcfg', -⟩ := burstHeader_framer op addr s
  have hin : ∀ room, addr.toNat + room ≤ s.cfg.deviceCapacity → (room ≤ 1 ∨ s.dev.mode = some .sequential) →
      (burstHeader op addr s).InBurst k addr.toNat room := by
    intro room hroom hmode
    refine ⟨by rw [hdev]; exact hl, ⟨true, by rw [hdev]⟩, fun _ => ?_, hcfg' ▸ hroom, by rw [hdev]; exact hmode⟩
    exact Device.dataAddress_eq_some (by rw [hdev]) (by rw [hdev]) (.inl rfl) (hcfg' ▸ ha)
  refine ⟨k, ⟨hin 0 ha.le (.inl (by omega)), fun room hroom hmode => ?_⟩, by rw [hdev]; rfl⟩
  rw [hdev] at hmode
  exact hin room (hcfg' ▸ hroom) (hmode.imp_left (by omega))

/-! ### A client that keeps the contract -/

/-- Where the device is when the client is there in the contract. -/
def State.BurstAt (s : State) : Option (Nat × Nat) → Prop
  | none => s.csN = .high ∧ s.dev.phase = .idle
  | some (a, n) => ∃ k, s.OpenBurst k a n

/-- A safe state on a transport that completes every transfer, with the device where the contract has the client. -/
structure State.Keeps (cap : Nat) (c : Contract) (s : State) : Prop where
  cfg      : s.cfg.wf = true
  capacity : s.cfg.deviceCapacity = cap
  answers  : s.allAnswersOk = true
  safe     : s.safe = true
  mode     : c.mode.isSome = true → s.dev.mode = c.mode
  burst    : s.BurstAt c.burst

/-- The framer's part carries over by itself; the device's part is the question. -/
theorem State.Keeps.of_exec {cap : Nat} {c c' : Contract} {i : Instr} {s t : State} (h : s.Keeps cap c)
    (hexec : exec i s = .next t) (hl : t.dev.lost = false) (hmode : c'.mode.isSome = true → t.dev.mode = c'.mode)
    (hburst : t.BurstAt c'.burst) : ∃ t, exec i s = .next t ∧ t.Keeps cap c' := by
  obtain ⟨hfault, hcfg, -, hans⟩ := exec_framer_of_allAnswersOk h.answers hexec
  obtain ⟨hf, -⟩ := State.safe_iff.1 h.safe
  exact ⟨t, hexec, hcfg ▸ h.cfg, hcfg ▸ h.capacity, hans, State.safe_iff.2 ⟨hfault.trans hf, hl⟩, hmode, hburst⟩

/-- A move of the contract keeps the device specified and where the contract has the client. -/
theorem State.Keeps.exec_move {cap : Nat} {c c' : Contract} {i : Instr} {s : State} (h : s.Keeps cap c)
    (hmove : Contract.Move cap c i c') : ∃ t, exec i s = .next t ∧ t.Keeps cap c' := by
  obtain ⟨hf, hl⟩ := State.safe_iff.1 h.safe
  have hans (n : Nat) : s.answersOk n = true := answersOk_of_allAnswersOk n h.answers
  have hcap := h.capacity
  have hburst := h.burst
  have hmode := h.mode
  cases hmove with
  | sendCmd hop hknown haddr =>
    obtain ⟨hc, -⟩ := hburst
    have hm : s.dev.mode.isSome = true := by rw [hmode hknown]; exact hknown
    obtain ⟨k, hopen, hsame⟩ := openBurst_burstHeader h.cfg hop hl hc hm (hcap ▸ haddr)
    exact h.of_exec (t := burstHeader _ _ s) (exec_sendCmd_eq hf (hans 4)) hopen.now.lost
      (fun hk => hsame.trans (hmode hk)) ⟨k, hopen⟩
  | xfer hfits hone =>
    obtain ⟨k, hopen⟩ := hburst
    have hone' := hone.imp_right fun hseq => (hmode (by rw [hseq]; rfl)).trans hseq
    obtain ⟨hopen', hsame⟩ := hopen.afterXfer (hcap ▸ hfits) hone'
    exact h.of_exec (t := afterXfer _ s) (exec_xfer_eq hf (hans 1)) hopen'.now.lost
      (fun hk => hsame.trans (hmode hk)) ⟨k, hopen'⟩
  | endCmd =>
    obtain ⟨k, hopen⟩ := hburst
    have hdev : (respond .ok 0 (setCS .high s)).dev = s.dev.endBurst := (setCS_high_dev s).trans hopen.now.deselect
    exact h.of_exec (exec_endCmd_eq hf) (by rw [hdev]; exact hl) (fun hk => by rw [hdev]; exact hmode hk)
      ⟨rfl, by rw [hdev]; rfl⟩
  | setMode m =>
    obtain ⟨hc, -⟩ := hburst
    have hdev := statusWrite_dev (d := modeCode s.cfg m) hc hl
    exact h.of_exec (exec_setModeOf_eq hf (hans 2)) (by rw [respond_dev, hdev]; exact hl)
      (fun _ => by rw [respond_dev, hdev]; exact modeOfStatus_modeCode s.cfg m) ⟨rfl, by rw [respond_dev, hdev]⟩
  | readStatus =>
    obtain ⟨hc, -⟩ := hburst
    obtain ⟨hdev, -⟩ := statusRead_dev (d := dummyTx) hc hl
    exact h.of_exec (exec_readStatus_eq hf (hans 2)) (by rw [respond_dev, hdev]; exact hl)
      (fun hk => by rw [respond_dev, hdev]; exact hmode hk) ⟨rfl, by rw [respond_dev, hdev]⟩

/-- A ready state is one from which a sequence can begin. -/
theorem State.keeps_of_ready {m : Option TransferMode} {s : State} (hcfg : s.cfg.wf = true) (hready : s.ready = true)
    (hans : s.allAnswersOk = true) (hmode : m.isSome = true → s.dev.mode = m) :
    s.Keeps s.cfg.deviceCapacity (.fresh m) := by
  obtain ⟨hf, hl, hc, hp⟩ := State.ready_iff.1 hready
  exact ⟨hcfg, rfl, hans, State.safe_iff.2 ⟨hf, hl⟩, hmode, hc, hp⟩

/-- Settles O47: every move carries `State.Keeps`. -/
theorem contractKeepsDeviceSpecified : Obligations.ContractKeepsDeviceSpecified := by
  intro is m c s hcfg hready hans hmode hrun
  obtain ⟨t, ht, hkeeps⟩ := Contract.execAll_of_run (pre := [])
    (P := fun _ c t => t.Keeps s.cfg.deviceCapacity c) (fun h hmove => h.exec_move hmove) hrun
    (State.keeps_of_ready hcfg hready hans hmode)
  exact ⟨t, ht, hkeeps.safe, hkeeps.mode⟩

/-! ### Resets and power-cycles among the requests -/

theorem step_of_framerReset {s : State} {rest : List Input} (hin : s.inputs = .framerReset :: rest) :
    step s = .next (framerReset { s with inputs := rest }) := by
  simp only [step, fetch, takeInput, hin]

theorem step_of_devicePowerCycle {s : State} {rest : List Input} (hin : s.inputs = .devicePowerCycle :: rest) :
    step s = .next (devicePowerCycle { s with inputs := rest }) := by
  simp only [step, fetch, takeInput, hin]

/-- Chip-select rising on a device where the contract has the client ends the burst, and changes nothing else. -/
theorem State.BurstAt.deselect {o : Option (Nat × Nat)} {s : State} (h : s.BurstAt o) (hl : s.dev.lost = false) :
    s.dev.deselect.endBurst = s.dev.endBurst ∧ s.dev.deselect.phase = .idle := by
  cases o with
  | none =>
    obtain ⟨-, hp⟩ := h
    rw [Device.deselect_idle hl hp]
    exact ⟨rfl, hp⟩
  | some b =>
    obtain ⟨k, hopen⟩ := h
    rw [hopen.now.deselect]
    exact ⟨rfl, rfl⟩

/-- A framer reset begins a new sequence in the mode selected before it (R88, R89). -/
theorem State.Keeps.framerReset {cap : Nat} {c : Contract} {s : State} (h : s.Keeps cap c) :
    (framerReset s).Keeps cap (.fresh c.mode) := by
  obtain ⟨-, hl⟩ := State.safe_iff.1 h.safe
  obtain ⟨hsame, hidle⟩ := h.burst.deselect hl
  obtain ⟨hstatus, hknown⟩ := Device.status_eq_of_endBurst_eq hsame
  have hmode : (Machine.framerReset s).dev.mode = s.dev.mode := Device.mode_congr hstatus hknown
  exact ⟨h.cfg, h.capacity, h.answers, rfl, fun hk => hmode.trans (h.mode hk), rfl, hidle⟩

/-- A power-cycle between bursts forgets the mode (R89). -/
theorem State.Keeps.devicePowerCycle {cap : Nat} {c : Contract} {s : State} (h : s.Keeps cap c)
    (hb : c.burst = none) : (devicePowerCycle s).Keeps cap .start := by
  have hburst := h.burst
  rw [hb] at hburst
  obtain ⟨hc, -⟩ := hburst
  exact ⟨h.cfg, h.capacity, h.answers, h.safe, nofun, hc, rfl⟩

/-- The inputs are the environment's, not the contract's. -/
theorem State.Keeps.withInputs {cap : Nat} {c : Contract} {s : State} (h : s.Keeps cap c) (rest : List Input) :
    State.Keeps cap c { s with inputs := rest } := by
  refine ⟨h.cfg, h.capacity, h.answers, h.safe, h.mode, ?_⟩
  have hburst := h.burst
  cases hb : c.burst with
  | none => rwa [hb] at hburst
  | some b =>
    rw [hb] at hburst
    obtain ⟨k, hnow, hmore⟩ := hburst
    exact ⟨k, hnow.withInputs rest, fun room hroom hmode => (hmore room hroom hmode).withInputs rest⟩

/-- One input the contract allows, as a step. -/
theorem State.Keeps.step {cap : Nat} {c c' : Contract} {x : Input} {rest : List Input} {s : State} (h : s.Keeps cap c)
    (hin : s.inputs = x :: rest) (hx : c.input cap x = some c') :
    ∃ t, step s = .next t ∧ t.Keeps cap c' ∧ t.inputs = rest := by
  have hs := h.withInputs rest
  cases x with
  | framerReset =>
    cases hx
    exact ⟨_, step_of_framerReset hin, hs.framerReset, rfl⟩
  | devicePowerCycle =>
    obtain ⟨hb, rfl⟩ := Contract.between_eq_some hx
    exact ⟨_, step_of_devicePowerCycle hin, hs.devicePowerCycle hb, rfl⟩
  | present p =>
    cases p with
    | frame bytes => cases hx
    | request w =>
      obtain ⟨t, hexec, hkeeps⟩ := hs.exec_move (Contract.move_of_next hx)
      obtain ⟨-, -, hinputs, -⟩ := exec_framer_of_allAnswersOk hs.answers hexec
      exact ⟨t, (step_of_decode hin rfl).trans hexec, hkeeps, hinputs⟩

/-- Inputs that keep the contract are all served, one a step. -/
theorem State.Keeps.runSteps {cap : Nat} {xs : List Input} : ∀ {c c' : Contract} {s : State}, s.Keeps cap c →
    s.inputs = xs → Contract.runInputs cap c xs = some c' →
    ∃ t, runSteps xs.length s = .next t ∧ t.Keeps cap c' ∧ t.inputs = [] := by
  induction xs with
  | nil =>
    intro c c' s h hin hrun
    cases hrun
    exact ⟨s, rfl, h, hin⟩
  | cons x xs ih =>
    intro c c' s h hin hrun
    unfold Contract.runInputs at hrun
    cases hx : c.input cap x with
    | none =>
      rw [hx] at hrun
      cases hrun
    | some d =>
      rw [hx] at hrun
      obtain ⟨u, hu, hkeeps, hrest⟩ := h.step hin hx
      rw [List.length_cons, Machine.runSteps, hu]
      exact ih hkeeps hrest hrun

/-- Settles O48: every input the contract allows carries `State.Keeps`. -/
theorem contractSurvivesResetsAndPowerCycles : Obligations.ContractSurvivesResetsAndPowerCycles := by
  intro m c s hcfg hready hans hmode hrun
  obtain ⟨t, ht, hkeeps, hinputs⟩ := (State.keeps_of_ready hcfg hready hans hmode).runSteps rfl hrun
  exact ⟨t, ht, hkeeps.safe, hinputs, hkeeps.mode⟩

end Sys2Proof.Machine
end

section
/-! What a sequence that keeps the contract puts on the wire (R67). Each move of the contract adds one of four segments to
the trace; `OnWire` says all of R67 of a trace, and a segment added to it keeps it. -/

namespace Sys2Proof.Machine

open Sys2Proof

/-! ### The segments -/

/-- The events of a request the contract allows, with whether a burst is open before and after it. -/
inductive Segment : Bool → Instr → List Event → Bool → Prop
  | header {op : Operation} {addr : ReqAddr} {a : WireAddr} {n : Nat} (hop : op = .read ∨ op = .write) :
      Segment false (.sendCmd op addr) (headerEvents op a n) true
  | data {tx rx : Byte} : Segment true (.xfer tx) [.t tx rx] true
  | close : Segment true .endCmd [.cs .high] false
  | status {i : Instr} {opc d r1 r2 : Byte} (hi : startsItem i = true ∧ endsItem i = true)
      (hopc : opc = opcWrsr ∨ opc = opcRdsr) : Segment false i [.cs .low, .t opc r1, .t d r2, .cs .high] false

theorem setModeOf_self_closing (m : TransferMode) :
    startsItem (setModeOf m) = true ∧ endsItem (setModeOf m) = true := by
  cases m <;> exact ⟨rfl, rfl⟩

/-- The events of a status frame (R48). -/
theorem statusFrame_trace (opc d : Byte) (s : State) : (setCS .high (statusBytes opc d s)).trace =
    s.trace ++ [.cs .low, .t opc (rxOf opc (setCS .low s)), .t d (statusRx opc d s), .cs .high] := by
  simp [statusBytes, statusRx]

/-- A move of the contract that completes adds its segment to the trace, and the line follows the trace (R11). -/
theorem exec_segment {cap : Nat} {c c' : Contract} {i : Instr} {s : State} (hmove : Contract.Move cap c i c')
    (hf : s.fault = .none) (ha : s.allAnswersOk = true) : ∃ t es, exec i s = .next t ∧
      Segment c.burst.isSome i es c'.burst.isSome ∧ t.trace = s.trace ++ es ∧ t.csN = lineAfter s.csN es := by
  have hans (n : Nat) : s.answersOk n = true := answersOk_of_allAnswersOk n ha
  cases hmove with
  | @sendCmd mode op addr hop hknown haddr =>
    have h := exec_sendCmd_eq (op := op) (addr := addr) hf (hans 4)
    rw [headerEnd_contractOfAddress, headerEnd_framer] at h
    exact ⟨_, _, h, .header hop, rfl, rfl⟩
  | xfer hfits hone => exact ⟨_, _, exec_xfer_eq hf (hans 1), .data, rfl, rfl⟩
  | endCmd => exact ⟨_, _, exec_endCmd_eq hf, .close, rfl, rfl⟩
  | setMode m =>
    exact ⟨_, _, exec_setModeOf_eq hf (hans 2), .status (setModeOf_self_closing m) (.inl rfl),
      statusFrame_trace opcWrsr _ s, rfl⟩
  | readStatus =>
    exact ⟨_, _, exec_readStatus_eq hf (hans 2), .status ⟨rfl, rfl⟩ (.inr rfl), statusFrame_trace opcRdsr _ s, rfl⟩

/-! ### What a segment says on the wire -/

section
variable {o o' : Bool} {i : Instr} {es : List Event}

/-- The line falls once for a request that opens an item, and rises once for one that completes it. -/
theorem Segment.counts (h : Segment o i es o') :
    (csLevels es).count .low = [i].countP startsItem ∧ (csLevels es).count .high = [i].countP endsItem := by
  cases h with
  | header | data | close => exact ⟨rfl, rfl⟩
  | status hi =>
    rw [List.countP_singleton, List.countP_singleton, hi.1, hi.2]
    exact ⟨rfl, rfl⟩

/-- The line's level while a burst is open, or not. -/
def lineOf : Bool → Level
  | true => .low
  | false => .high

theorem Segment.line (h : Segment o i es o') : lineAfter (lineOf o) es = lineOf o' := by
  cases h <;> rfl

/-- The levels go on alternating: the next one to come is never the line's own. -/
theorem Segment.alternates (h : Segment o i es o') : Machine.alternates (lineOf !o) (csLevels es) = true ∧
    nextLevel (lineOf !o) (csLevels es) = lineOf !o' := by
  cases h <;> exact ⟨rfl, rfl⟩

theorem Segment.quiet (h : Segment o i es o') : noTransferWhileHigh (lineOf o) es = true := by
  cases h <;> rfl

/-- The bytes of a Read or Write burst so far: a header and any data bytes. -/
def Addressed (bs : List Byte) : Prop :=
  ∃ opc b1 b2 b3 ds, bs = opc :: b1 :: b2 :: b3 :: ds ∧ (opc = opcWrite ∨ opc = opcRead)

theorem Addressed.append {bs : List Byte} (h : Addressed bs) (cs : List Byte) : Addressed (bs ++ cs) := by
  obtain ⟨opc, b1, b2, b3, ds, rfl, hopc⟩ := h
  exact ⟨opc, b1, b2, b3, ds ++ cs, rfl, hopc⟩

theorem Addressed.burstForm {bs : List Byte} (h : Addressed bs) : burstForm bs = true := by
  obtain ⟨opc, b1, b2, b3, ds, rfl, rfl | rfl⟩ := h <;> rfl

/-- A burst is open exactly where the contract has one, and it is an addressed one. -/
def OpenForm : Bool → Option (List (Byte × Byte)) → Prop
  | false, o => o = none
  | true, o => ∃ b, o = some b ∧ Addressed (b.map Prod.fst)

/-- A segment leaves the burst open that it should, and every burst it completes has one of the two forms. -/
theorem Segment.bursts {p : Option (List (Byte × Byte))} (h : Segment o i es o') (hp : OpenForm o p) :
    OpenForm o' (openAfter p es) ∧ ∀ b ∈ burstsFrom p es, burstForm (b.map Prod.fst) = true := by
  cases h with
  | header hop =>
    cases hp
    exact ⟨⟨_, rfl, _, _, _, _, [], rfl, by rcases hop with rfl | rfl <;> simp [Operation.opcode]⟩, nofun⟩
  | data =>
    obtain ⟨b, rfl, hb⟩ := hp
    exact ⟨⟨_, rfl, by rw [List.map_append]; exact hb.append _⟩, nofun⟩
  | close =>
    obtain ⟨b, rfl, hb⟩ := hp
    exact ⟨rfl, by simpa [burstsFrom] using hb.burstForm⟩
  | status hi hopc =>
    cases hp
    exact ⟨rfl, by rcases hopc with rfl | rfl <;> simp [burstsFrom, burstForm, opcWrsr, opcRdsr]⟩

end

/-! ### The trace of a sequence -/

/-- What R67 says of the trace after the requests `is`, with a burst open after them or not. -/
structure OnWire (is : List Instr) (isOpen : Bool) (es : List Event) : Prop where
  alternates : Machine.alternates .low (csLevels es) = true
  next       : nextLevel .low (csLevels es) = lineOf !isOpen
  line       : lineAfter .high es = lineOf isOpen
  falls      : (csLevels es).count .low = is.countP startsItem
  rises      : (csLevels es).count .high = is.countP endsItem
  quiet      : noTransferWhileHigh .high es = true
  bursts     : ∀ b ∈ Machine.bursts es, burstForm (b.map Prod.fst) = true
  burst      : OpenForm isOpen (openAfter none es)

theorem onWire_nil : OnWire [] false [] := ⟨rfl, rfl, rfl, rfl, rfl, rfl, nofun, rfl⟩

/-- A segment goes on from a trace that meets R67. -/
theorem OnWire.append {is : List Instr} {i : Instr} {o o' : Bool} {es fs : List Event} (h : OnWire is o es)
    (hs : Segment o i fs o') : OnWire (is ++ [i]) o' (es ++ fs) where
  alternates := by rw [csLevels_append, alternates_append, h.alternates, h.next, hs.alternates.1]; rfl
  next := by rw [csLevels_append, nextLevel_append, h.next, hs.alternates.2]
  line := by rw [lineAfter_append, h.line, hs.line]
  falls := by rw [csLevels_append, List.count_append, h.falls, hs.counts.1, List.countP_append]
  rises := by rw [csLevels_append, List.count_append, h.rises, hs.counts.2, List.countP_append]
  quiet := by rw [noTransferWhileHigh_append, h.quiet, h.line, hs.quiet]; rfl
  bursts := by
    rw [Machine.bursts, burstsFrom_append]
    exact List.forall_mem_append.2 ⟨h.bursts, (hs.bursts h.burst).2⟩
  burst := by
    rw [openAfter_append]
    exact (hs.bursts h.burst).1

/-- The state after the requests `is`, where the client is at `c`: the trace meets R67 and R53, and the line follows it. -/
structure State.Wired (is : List Instr) (c : Contract) (s : State) : Prop where
  fault   : s.fault = .none
  answers : s.allAnswersOk = true
  line    : s.csN = lineAfter .high s.trace
  opcodes : OpcodesOk s.trace
  wire    : OnWire is c.burst.isSome s.trace

theorem State.Wired.exec_move {cap : Nat} {is : List Instr} {c c' : Contract} {i : Instr} {s : State}
    (h : s.Wired is c) (hmove : Contract.Move cap c i c') : ∃ t, exec i s = .next t ∧ t.Wired (is ++ [i]) c' := by
  obtain ⟨t, es, hexec, hseg, htrace, hline⟩ := exec_segment hmove h.fault h.answers
  obtain ⟨hfault, -, -, hans⟩ := exec_framer_of_allAnswersOk h.answers hexec
  refine ⟨t, hexec, hfault.trans h.fault, hans, ?_, exec_opcodesOk hexec h.opcodes, htrace ▸ h.wire.append hseg⟩
  rw [hline, h.line, htrace, lineAfter_append]

/-- Settles O46: every move of the contract adds a segment to the trace. -/
theorem wellFormedSequenceOnTheWire : Obligations.WellFormedSequenceOnTheWire := by
  intro is m c s hf hc htrace hans hrun
  have hstart : s.Wired [] (.fresh m) :=
    ⟨hf, hans, by rw [htrace]; exact hc, by rw [htrace]; exact opcodesOk_nil, by rw [htrace]; exact onWire_nil⟩
  obtain ⟨t, ht, h⟩ := Contract.execAll_of_run (P := fun is c s => s.Wired is c)
    (fun h hmove => h.exec_move hmove) hrun hstart
  rw [List.nil_append] at h
  have hline : t.csN = if c.burst.isNone then .high else .low := by
    rw [h.line, h.wire.line]
    cases c.burst <;> rfl
  exact ⟨t, ht, h.wire.alternates, h.opcodes.2, h.wire.bursts, hline, h.wire.falls, h.wire.rises, h.wire.quiet, h.fault⟩

end Sys2Proof.Machine
end

section
/-! The self-closing status requests (R70 to R72): what `SET_MODE` and `READ_STATUS` put on the wire, and what they do
to the status register of a specified device on a high line. -/

namespace Sys2Proof.Machine

open Sys2Proof

/-! ### On the wire -/

/-- The three rows of `SET_MODE` are those of its three modes. -/
theorem eq_setModeOf_of_mem {i : Instr} {m : TransferMode}
    (h : (i, m) ∈ [(Instr.setModeByte, TransferMode.byte), (.setModeSequential, .sequential), (.setModePage, .page)]) :
    i = setModeOf m := by
  simp only [List.mem_cons, Prod.mk.injEq, List.not_mem_nil, or_false] at h
  rcases h with ⟨rfl, rfl⟩ | ⟨rfl, rfl⟩ | ⟨rfl, rfl⟩ <;> rfl

/-- Settles O18: `SET_MODE` is a status frame of `OPC_WRSR` and the mode byte. -/
theorem setModeSendsStatusWrite : Obligations.SetModeSendsStatusWrite := by
  intro i m s hi hf ha
  rw [eq_setModeOf_of_mem hi]
  exact ⟨_, _, _, exec_setModeOf_eq hf ha, statusFrame_trace opcWrsr _ s, rfl, hf, rfl, rfl, rfl, tail_twice _, rfl⟩

/-- Settles O20: `READ_STATUS` is a status frame of `OPC_RDSR` and the dummy byte. -/
theorem readStatusSendsStatusRead : Obligations.ReadStatusSendsStatusRead :=
  fun s hf ha => ⟨_, _, _, exec_readStatus_eq hf ha, statusFrame_trace opcRdsr dummyTx s, rfl, hf, rfl, rfl, rfl,
    tail_twice _, rfl⟩

/-! ### At the device -/

/-- The state after a `SET_MODE` that completes (R70). -/
def afterSetMode (m : TransferMode) (s : State) : State :=
  respond .ok 0 (setCS .high (statusBytes opcWrsr (modeCode s.cfg m) s))

theorem afterSetMode_dev {m : TransferMode} {s : State} (hc : s.csN = .high) (hl : s.dev.lost = false) :
    (afterSetMode m s).dev =
      { s.dev with status := modeCode s.cfg m, statusKnown := true, phase := .idle, ctr := none } :=
  statusWrite_dev hc hl

/-- `SET_MODE` uses two answers. -/
theorem answersOk_afterSetMode {n : Nat} {m : TransferMode} {s : State} (h : s.answersOk (n + 2) = true) :
    (afterSetMode m s).answersOk n = true :=
  answersOk_congr rfl (answersOk_afterTransfer (tx := modeCode s.cfg m)
    (answersOk_afterTransfer (tx := opcWrsr) (answersOk_congr (t := setCS .low s) rfl h)))

/-- `SET_MODE` is idempotent at a specified device on a high line (R72): after the first the line is high and the device
specified, so the second writes the same status byte. -/
theorem afterSetMode_twice_dev {m : TransferMode} {s : State} (hc : s.csN = .high) (hl : s.dev.lost = false) :
    (afterSetMode m (afterSetMode m s)).dev = (afterSetMode m s).dev := by
  have hdev := afterSetMode_dev (m := m) hc hl
  have hlost : (afterSetMode m s).dev.lost = false := by rw [hdev]; exact hl
  rw [afterSetMode_dev rfl hlost, hdev]
  rfl

/-- `SET_MODE` is never elided (R72): it adds the four events of a status frame, whatever the device is. -/
theorem afterSetMode_trace_length (m : TransferMode) (s : State) :
    (afterSetMode m s).trace.length = s.trace.length + 4 := by
  rw [afterSetMode, respond_trace, statusFrame_trace, List.length_append]
  rfl

/-- Settles O19: the device after a status write is known, and a second `SET_MODE` starts from a state like the first. -/
theorem setModeReplacesDeviceStatus : Obligations.SetModeReplacesDeviceStatus := by
  intro i m s t hi _ hsafe hc ha h
  obtain ⟨hf, hl⟩ := State.safe_iff.1 hsafe
  rw [eq_setModeOf_of_mem hi] at h ⊢
  obtain rfl : afterSetMode m s = t := by
    rw [exec_setModeOf_eq hf (answersOk_mono (by decide) ha)] at h
    exact Host.Outcome.next.inj h
  have hagain : exec (setModeOf m) (afterSetMode m s) = .next (afterSetMode m (afterSetMode m s)) :=
    exec_setModeOf_eq hf (answersOk_afterSetMode ha)
  have hdev := afterSetMode_dev (m := m) hc hl
  rw [hdev]
  exact ⟨rfl, modeOfStatus_modeCode s.cfg m, hl, rfl, rfl, fun _ => rfl, _, hagain,
    (afterSetMode_twice_dev hc hl).trans hdev, afterSetMode_trace_length m _⟩

/-- Between two instructions no burst is open at a specified device on a high line, so ending it changes nothing
(R19, R32). -/
theorem endBurst_eq_self_of_inv {s : State} (hs : s.inv = true) (hl : s.dev.lost = false) (hc : s.csN = .high) :
    s.dev.endBurst = s.dev := by
  obtain ⟨-, hctr, hline, -⟩ := inv_iff_wireInv_burstInv.1 hs
  have hidle : s.dev.phase = .idle := hline.resolve_left (by simp [hc])
  obtain ⟨hp, hnone⟩ | ⟨k, first, a, hp, -⟩ := (Device.counterWf_specified hl).1 hctr
  · exact congrArg₂ (fun p c => { s.dev with phase := p, ctr := c }) hp.symm hnone.symm
  · cases hidle.symm.trans hp

/-- Settles O21: the byte received is the status register as read back, and only the burst of the frame is ended. -/
theorem readStatusReturnsModeBits : Obligations.ReadStatusReturnsModeBits := by
  intro s t hs hsafe hc ha h
  obtain ⟨hf, hl⟩ := State.safe_iff.1 hsafe
  obtain ⟨hdev, free, hrx⟩ := statusRead_dev (d := dummyTx) hc hl
  rw [exec_readStatus_eq hf ha] at h
  cases h
  refine ⟨statusRx opcRdsr dummyTx s, rfl, ?_, hdev.trans (endBurst_eq_self_of_inv hs hl hc)⟩
  rw [hrx, statusReadback_mode]

end Sys2Proof.Machine
end

section
/-! Exceptions (R76 to R78): a bus fault at a transfer of an instruction, the reserved requests, the faulted state. -/

namespace Sys2Proof.Machine

open Sys2Proof

/-! ### A bus fault (R76) -/

section
variable {s : State} {k : Nat} {rest : List Answer}

/-- A run of transfers that meets a bus fault after `k` answers ends at its byte `k`. -/
theorem transferAll_busFault {bs : List Byte} {last : Byte} (hk : k < bs.length)
    (ha : s.answers = List.replicate k .ok ++ .busFault :: rest) :
    transferAll last bs s = .ended (takeTransportError bs[k] (runBytes (bs.take k) s).useAnswer) := by
  obtain ⟨last', b, tl, hdrop, hrun, hans⟩ := transferAll_after_ok (last := last) hk ha
  obtain ⟨rfl, -⟩ := List.cons.inj ((List.drop_eq_getElem_cons hk).symm.trans hdrop)
  rw [hrun, transferAll_cons, transfer_of_busFault (by simp [State.nextAnswer, hans]), andThen_ended]

variable {i : Instr} {start : State} {bytes : List Byte} {close : Byte → State → State}

/-- An instruction that meets a bus fault ends there: its close does not run. -/
theorem exec_busFault (hf : s.fault = .none) (ha : s.answers = List.replicate k .ok ++ .busFault :: rest)
    (hp : plan i s = .run start bytes close) (hk : k < bytes.length) :
    exec i s = .next (takeTransportError bytes[k] (runBytes (bytes.take k) start).useAnswer) := by
  have hstart : start.answers = List.replicate k .ok ++ .busFault :: rest := (plan_start hp).1.trans ha
  rw [exec_of_unfaulted hf, hp]
  simp only [Plan.outcome, transferAll_busFault hk hstart]

/-- The whole outcome of a bus fault, where the instruction's start leaves the line at `l` and records `cs`. -/
theorem exec_busFault_effect {l : Level} {cs : List Event} (hf : s.fault = .none)
    (ha : s.answers = List.replicate k .ok ++ .busFault :: rest) (hp : plan i s = .run start bytes close)
    (hcs : start.trace = s.trace ++ cs) (hl : start.csN = l) (hk : k < bytes.length) :
    ∃ t es, exec i s = .next t ∧ es.length = k ∧
      t.trace = s.trace ++ (cs ++ es) ++ bytes[k]?.toList.map Event.tf ∧
      wireBytes es = bytes.take k ∧ hasBusFault es = false ∧
      t.csN = l ∧ t.fault = .transportError ∧ t.dev.lost = true ∧ t.answers = rest ∧
      t.responses = s.responses ++ [⟨.transportError, 0⟩] ∧ t.cfg = s.cfg ∧ t.inputs = s.inputs := by
  obtain ⟨hans, -, hcfg, hin, hresp, -⟩ := plan_start hp
  obtain ⟨hcfg', hl', -, hresp', hin', hans', -, rxs, hrxs, htrace⟩ := runBytes_spec (bytes.take k) start
  have hlen : (bytes.take k).length = k := List.length_take_of_le hk.le
  refine ⟨_, List.zipWith Event.t (bytes.take k) rxs, exec_busFault hf ha hp hk, ?_, ?_, wireBytes_zipWith_t hrxs,
    hasBusFault_zipWith_t _ _, hl'.trans hl, rfl, rfl, ?_, ?_, hcfg'.trans hcfg, hin'.trans hin⟩
  · rw [List.length_zipWith, hrxs, hlen, min_self]
  · rw [takeTransportError_trace, useAnswer_trace, htrace, hcs, List.append_assoc s.trace, List.getElem?_eq_getElem hk]
    rfl
  · rw [takeTransportError_answers, useAnswer_answers, hans', hlen, hans, ha]
    simp
  · rw [takeTransportError_responses, useAnswer_responses, hresp', hresp]

end

/-- `SET_MODE` and `READ_STATUS` each run the two transfers of a status frame (R70, R71). -/
theorem plan_statusRequest {i : Instr} {opc d : Byte} {s : State}
    (h : (i, opc, d) ∈ [(Instr.setModeByte, 0x01, modeCode s.cfg .byte),
      (.setModeSequential, 0x01, modeCode s.cfg .sequential), (.setModePage, 0x01, modeCode s.cfg .page),
      (.readStatus, 0x05, 0x00)]) : ∃ close, plan i s = .run (setCS .low s) [opc, d] close := by
  simp only [List.mem_cons, Prod.mk.injEq, List.not_mem_nil, or_false] at h
  rcases h with ⟨rfl, rfl, rfl⟩ | ⟨rfl, rfl, rfl⟩ | ⟨rfl, rfl, rfl⟩ | ⟨rfl, rfl, rfl⟩ <;> exact ⟨_, rfl⟩

/-- Settles O24: each request is the run of its plan; `XFER` starts where it stands, the frames with `CS(0)`. -/
theorem busFaultEndsTheRequest : Obligations.BusFaultEndsTheRequest := by
  intro s k rest hf ha
  refine ⟨fun op addr hk => ?_, fun data hk => ?_, fun i opc d hi hk => ?_⟩
  · exact exec_busFault_effect hf ha rfl (cs := [.cs .low]) (by simp) (by simp) hk
  · subst hk
    exact ⟨_, exec_busFault hf ha rfl (by simp), rfl, rfl, rfl, rfl, congrArg List.tail ha, rfl, rfl, rfl⟩
  · obtain ⟨close, hp⟩ := plan_statusRequest hi
    exact exec_busFault_effect hf ha hp (cs := [.cs .low]) rfl rfl hk

/-! ### Reserved requests (R77) -/

/-- A request word is built of its fields (R54). -/
theorem reqWord_fields (w : Req) : reqWord (reqKind w) (reqOp w) (reqMode w) (reqAddr w) (reqData w) = w := by
  simp (disch := decide) only [reqWord, reqKind, reqOp, reqMode, reqAddr, reqData,
    BitVec.extractLsb'_append_extractLsb'_eq_extractLsb']
  exact BitVec.extractLsb'_eq_self

/-- A word of a reserved kind, or of `SET_MODE` with mode `0b11`, is read as a reserved row (R55, R56). -/
theorem decodeRequest_mem_reserved {w : Req} (h : 5#4 ≤ reqKind w ∨ (reqKind w = 3#4 ∧ reqMode w = 3#2)) :
    decodeRequest w ∈ [Instr.setModeReserved, .reservedKind5, .reservedKind6To7 (reqKind w),
      .reservedKind8ToF (reqKind w)] := by
  rcases h with h | ⟨hkind, hmode⟩
  · have hrow := reservedKindsDecodeToReservedRows (reqKind w) (reqOp w) (reqMode w) (reqAddr w) (reqData w) h
    rw [reqWord_fields] at hrow
    rw [hrow]
    split_ifs <;> simp
  · have hrow := decodeRequest_kind_setMode (reqOp w) (reqMode w) (reqAddr w) (reqData w)
    rw [← hkind, reqWord_fields, hmode] at hrow
    rw [hrow]
    exact List.mem_cons_self

/-- Settles O22: the plan of each reserved row is the answer, and each such word is read as a reserved row. -/
theorem reservedRequestsAreIllegal : Obligations.ReservedRequestsAreIllegal := by
  intro s hf
  have hrows : ∀ (kind : BitVec 4) (i : Instr),
      i ∈ [Instr.setModeReserved, .reservedKind5, .reservedKind6To7 kind, .reservedKind8ToF kind] →
      exec i s = .next (respond .illegalRequest 0 s) := by
    intro kind i hi
    rw [exec_of_unfaulted hf]
    simp only [List.mem_cons, List.not_mem_nil, or_false] at hi
    rcases hi with rfl | rfl | rfl | rfl <;> rfl
  exact ⟨hrows, fun w hw => hrows (reqKind w) _ (decodeRequest_mem_reserved hw)⟩

/-! ### The faulted state (R78) -/

/-- Settles O23: the two rows that have no step are no requests, and the reset values hold no fault. -/
theorem faultedStateRefusesEverything : Obligations.FaultedStateRefusesEverything := by
  intro i s hf
  refine ⟨fun hi => exec_of_faulted hf ?_ ?_, framerReset_fault s⟩
  all_goals
    rintro rfl
    cases hi

end Sys2Proof.Machine
end

section
/-! Resets and stalls (R88, R89, R96). That a run of transfers comes to the first answer that does not complete its transfer
is said once, for a framer reset and for a stall alike. -/

namespace Sys2Proof.Machine

open Sys2Proof

/-! ### A framer reset and a power-cycle between requests (R88, R89) -/

/-- After chip-select has risen no burst is open, whatever the device was in (R32). -/
theorem Device.deselect_phase (d : Device) : d.deselect.phase = .idle := by
  cases hl : d.lost
  · cases hp : d.phase <;> simp [Device.deselect, hl, hp]
  · rw [Device.deselect_of_lost hl]
    rfl

/-- Between two instructions chip-select rising ends the burst of a specified device, and changes nothing else (R32). -/
theorem Device.deselect_eq_endBurst {cap : Nat} {d : Device} (hl : d.lost = false) (h : d.counterWf cap = true) :
    d.deselect = d.endBurst := by
  obtain ⟨hp, hc⟩ | ⟨k, first, a, hp, -⟩ := (Device.counterWf_specified hl).1 h
  · rw [Device.deselect_idle hl hp, Device.endBurst, ← hp, ← hc]
  · exact Device.deselect_data hl hp

/-- Settles O11: the reset raises chip-select, which at a specified device ends the burst only. -/
theorem framerResetTakesResetValues : Obligations.FramerResetTakesResetValues := by
  intro s rest hin
  refine ⟨_, step_of_framerReset hin, rfl, rfl, rfl, rfl, rfl, rfl, rfl, rfl, rfl, Device.deselect_phase s.dev,
    fun hs hl => ?_⟩
  obtain ⟨-, hctr, -⟩ := inv_iff_wireInv_burstInv.1 hs
  rw [framerReset_dev, Device.framerReset, Device.deselect_eq_endBurst hl hctr]
  exact ⟨rfl, rfl, rfl, fun _ => rfl⟩

/-- Settles O12: the device is powered on in a new epoch, and its memory lists no byte. -/
theorem powerCycleForgetsTheDevice : Obligations.PowerCycleForgetsTheDevice :=
  fun _ _ hin => ⟨_, step_of_devicePowerCycle hin, rfl, rfl, rfl, rfl, rfl, rfl, rfl, rfl, rfl, rfl, rfl, rfl, rfl,
    fun _ => rfl⟩

/-! ### A transfer that does not complete, in an instruction -/

section
variable {i : Instr} {s start : State} {k : Nat} {a : Answer} {rest : List Answer} {bytes : List Byte}
  {close : Byte → State → State}

/-- A run of transfers whose first `k` complete comes to its byte `k` with the answer after them; what it does past that
byte is left unsaid. -/
theorem transferAll_at {last : Byte} (hk : k < bytes.length) (ha : s.answers = List.replicate k .ok ++ a :: rest) :
    (runBytes (bytes.take k) s).answers = a :: rest ∧ (runBytes (bytes.take k) s).nextAnswer = a ∧
    ∃ f, transferAll last bytes s = (transfer bytes[k] (runBytes (bytes.take k) s)).andThen f := by
  obtain ⟨last', b, tl, hdrop, hrun, hans⟩ := transferAll_after_ok (last := last) hk ha
  obtain ⟨rfl, -⟩ := List.cons.inj ((List.drop_eq_getElem_cons hk).symm.trans hdrop)
  exact ⟨hans, by rw [State.nextAnswer, hans]; rfl, _, hrun.trans (transferAll_cons _ _ _ _)⟩

/-- An instruction whose transfer `k` is cut by a framer reset ends there: its close does not run (R88). -/
theorem exec_reset (hf : s.fault = .none) (ha : s.answers = List.replicate k .ok ++ .reset :: rest)
    (hp : plan i s = .run start bytes close) (hk : k < bytes.length) :
    exec i s = .next (resetDuringTransfer (runBytes (bytes.take k) start).useAnswer) := by
  obtain ⟨-, hnext, f, hrun⟩ := transferAll_at (last := 0) hk ((plan_start hp).1.trans ha)
  rw [exec_of_unfaulted hf, hp, Plan.outcome, hrun, transfer_of_reset hnext, andThen_ended]

/-- An instruction whose transfer `k` never answers has no next state (R96). -/
theorem exec_stall (hf : s.fault = .none) (ha : s.answers = List.replicate k .ok ++ .stall :: rest)
    (hp : plan i s = .run start bytes close) (hk : k < bytes.length) : exec i s = .fault .stalledTransfer := by
  obtain ⟨-, hnext, f, hrun⟩ := transferAll_at (last := 0) hk ((plan_start hp).1.trans ha)
  rw [exec_of_unfaulted hf, hp, Plan.outcome, hrun, transfer_of_stall hnext, andThen_stalled]

end

/-! ### A framer reset during a transfer (R88, R89) -/

/-- Cut at a data byte with a specified address: the status register and every byte but the one a Write burst was
storing keep their values (log entry 7). -/
theorem Device.cutShort_data {cap a : Nat} {free : Byte} {d : Device} (hl : d.lost = false)
    (ha : d.dataAddress cap = some a) :
    (d.cutShort cap free).status = d.status ∧ (d.cutShort cap free).statusKnown = d.statusKnown ∧
      ∀ b, d.storeAddress cap ≠ some b → (d.cutShort cap free).byteAt b = d.byteAt b := by
  cases hs : d.storeAddress cap with
  | none =>
    rw [Device.cutShort_read hs ha hl]
    exact ⟨rfl, rfl, fun _ _ => rfl⟩
  | some c =>
    rw [Device.cutShort_write hs]
    exact ⟨rfl, rfl, fun b hb => Device.byteAt_store_other (d := d) rfl rfl fun h => hb (h ▸ rfl)⟩

/-- Cut at the data byte of `SET_MODE`: memory keeps every byte, and no mode is known (R26, log entry 7). -/
theorem cutShort_statusWriteOpcode {cap : Nat} {free : Byte} {s : State} (hc : s.csN = .high) (hl : s.dev.lost = false) :
    (∀ b, ((afterTransfer opcWrsr (setCS .low s)).dev.cutShort cap free).byteAt b = s.dev.byteAt b) ∧
      ((afterTransfer opcWrsr (setCS .low s)).dev.cutShort cap free).mode = none := by
  rw [statusWriteOpcode_dev hc hl, Device.cutShort_statusWrite (d := { s.dev with phase := .statusWrite }) hl rfl]
  exact ⟨fun _ => rfl, rfl⟩

/-- Cut at the second byte of `READ_STATUS`: memory and the status register keep their values (R35, R71). -/
theorem cutShort_statusReadOpcode {cap : Nat} {free : Byte} {s : State} (hc : s.csN = .high) (hl : s.dev.lost = false) :
    (∀ b, ((afterTransfer opcRdsr (setCS .low s)).dev.cutShort cap free).byteAt b = s.dev.byteAt b) ∧
      ((afterTransfer opcRdsr (setCS .low s)).dev.cutShort cap free).status = s.dev.status ∧
      ((afterTransfer opcRdsr (setCS .low s)).dev.cutShort cap free).statusKnown = s.dev.statusKnown := by
  rw [statusReadOpcode_dev hc hl, Device.cutShort_statusRead (d := { s.dev with phase := .statusRead }) hl rfl]
  exact ⟨fun _ => rfl, rfl, rfl⟩

/-- Settles O13: the reset cuts the burst at the device the completed transfers have left, which for `XFER` is the
device itself, and for a status request the device past the opcode. -/
theorem resetDuringTransferAbandonsRequest : Obligations.ResetDuringTransferAbandonsRequest := by
  intro i k s rest _ hk hf ha
  obtain ⟨start, bytes, close, hp⟩ := plan_run_of_transfers s (Nat.zero_lt_of_lt hk)
  rw [← plan_length hp] at hk
  obtain ⟨hstart, -, hcfg, hin, hresp, -⟩ := plan_start hp
  obtain ⟨hcfg', -, -, hresp', hin', -⟩ := runBytes_spec (bytes.take k) start
  obtain ⟨hans, -⟩ := transferAll_at (last := 0) hk (hstart.trans ha)
  obtain ⟨hphase, hctr, hlost, -⟩ := Device.cutShort_spec (cap := (runBytes (bytes.take k) start).cfg.deviceCapacity)
    (free := Config.freeRx (runBytes (bytes.take k) start).draws) (d := (runBytes (bytes.take k) start).dev)
  refine ⟨_, exec_reset hf ha hp hk, rfl, rfl, rfl, hresp'.trans hresp, congrArg List.tail hans, hcfg'.trans hcfg,
    hin'.trans hin, hlost, hphase, hctr, ?_, ?_⟩
  · rintro d a rfl hl hd
    cases hp
    obtain rfl : k = 0 := Nat.lt_one_iff.1 hk
    exact Device.cutShort_data hl hd
  · rintro hi rfl hl hc
    simp only [List.mem_cons, List.not_mem_nil, or_false] at hi
    rcases hi with rfl | rfl | rfl | rfl <;> cases hp
    on_goal 4 => exact cutShort_statusReadOpcode hc hl
    all_goals exact cutShort_statusWriteOpcode hc hl

/-! ### A stalled transfer (R96) -/

/-- The next answer, where it does not complete the transfer, stands in the coming answers. -/
theorem nextAnswer_mem_answers {s : State} (h : s.nextAnswer ≠ .ok) : s.nextAnswer ∈ s.answers := by
  unfold State.nextAnswer at h ⊢
  cases ha : s.answers with
  | nil => exact absurd (by rw [ha]; rfl) h
  | cons a as => exact List.mem_cons_self

/-- A run of transfers stalls only where a stall stands in the coming answers. -/
theorem transferAll_ne_stalled {bs : List Byte} {last : Byte} {s : State} (h : .stall ∉ s.answers) :
    transferAll last bs s ≠ .stalled := by
  induction bs generalizing last s with
  | nil => nofun
  | cons b bs ih =>
    rw [transferAll_cons]
    rcases transfer_cases b s with ⟨-, ht⟩ | ⟨-, ht⟩ | ⟨-, ht⟩ | ⟨hnext, -⟩
    · rw [ht, andThen_got]
      exact ih fun hmem => h (List.mem_of_mem_tail hmem)
    · rw [ht]
      nofun
    · rw [ht]
      nofun
    · exact absurd (hnext ▸ nextAnswer_mem_answers (by rw [hnext]; nofun)) h

/-- Only the two reserved opcode rows have no step (R53). -/
theorem plan_stop {i : Instr} {s : State} {r : Refusal} (h : plan i s = .stop r) : i = .wireHsread ∨ i = .wireRstio := by
  cases i <;> simp only [plan] at h <;> cases h
  · exact .inl rfl
  · exact .inr rfl

/-- Without a stall among the coming answers every instruction that has a step answers a next state. -/
theorem exec_next_of_no_stall {i : Instr} {s : State} (h : .stall ∉ s.answers) (h1 : i ≠ .wireHsread)
    (h2 : i ≠ .wireRstio) : ∃ t, exec i s = .next t := by
  cases hf : s.fault with
  | transportError => exact ⟨_, exec_of_faulted hf h1 h2⟩
  | none =>
    rw [exec_of_unfaulted hf]
    cases hp : plan i s with
    | stop r => exact absurd (plan_stop hp) (not_or.2 ⟨h1, h2⟩)
    | answer t => exact ⟨t, rfl⟩
    | run start bytes close =>
      rw [Plan.outcome]
      cases hrun : transferAll 0 bytes start with
      | got rx u => exact ⟨_, rfl⟩
      | ended u => exact ⟨_, rfl⟩
      | stalled => exact absurd hrun (transferAll_ne_stalled ((plan_start hp).1 ▸ h))

/-- Settles O25: an instruction that makes a transfer is a run, which stalls at its byte `k` or at none. -/
theorem stalledTransferHangs : Obligations.StalledTransferHangs := by
  refine fun i s => ⟨fun k rest hk hf ha => ?_, exec_next_of_no_stall⟩
  obtain ⟨start, bytes, close, hp⟩ := plan_run_of_transfers s (Nat.zero_lt_of_lt hk)
  exact exec_stall hf ha hp (plan_length hp ▸ hk)

end Sys2Proof.Machine
end

section
/-! The counts of transfers and of chip-select levels (R99). Both add up over a list of instructions, so those of a burst
are a sum over its instructions. -/

namespace Sys2Proof.Machine

open Sys2Proof

/-! ### One instruction, and a list of them -/

/-- The levels an instruction sets the line to when its transfers complete (R47, R48, R65). -/
def levelsOf : Instr → List Level
  | .sendCmd _ _ | .wireRead _ | .wireWrite _ | .wireRdsrA _ | .wireWrsrA _ => [.low]
  | .endCmd => [.high]
  | .setModeByte | .setModeSequential | .setModePage | .readStatus | .wireWrsr _ | .wireRdsr _ => [.low, .high]
  | .xfer _ | .setModeReserved | .reservedKind5 | .reservedKind6To7 _ | .reservedKind8ToF _ => []
  | .wireHsread | .wireRstio => []

/-- The start and the close of a run of transfers record the instruction's levels, in order, and nothing else. -/
theorem plan_levels {i : Instr} {s start : State} {bytes : List Byte} {close : Byte → State → State}
    (h : plan i s = .run start bytes close) : ∃ before after : List Level, levelsOf i = before ++ after ∧
      start.trace = s.trace ++ before.map .cs ∧ ∀ rx u, (close rx u).trace = u.trace ++ after.map .cs := by
  cases i <;> simp only [plan] at h <;> cases h
  case xfer => exact ⟨[], [], rfl, by simp, by simp⟩
  case sendCmd | wireRead | wireWrite | wireRdsrA | wireWrsrA => exact ⟨[.low], [], rfl, by simp, by simp⟩
  all_goals exact ⟨[.low], [.high], rfl, rfl, fun _ _ => rfl⟩

/-- Recording levels is no transfer. -/
theorem transferCount_map_cs (ls : List Level) : transferCount (ls.map .cs) = 0 := by
  simp [transferCount, Function.comp_def]

theorem csLevels_map_cs (ls : List Level) : csLevels (ls.map .cs) = ls := by
  simp [csLevels, Function.comp_def, Event.level]

/-- An answer at once makes no transfer, and `END_CMD` alone sets the line. -/
theorem plan_answer_counts {i : Instr} {s t : State} (h : plan i s = .answer t) :
    ∃ es, t.trace = s.trace ++ es ∧ transferCount es = transfersOf i ∧ csLevels es = levelsOf i := by
  cases i <;> simp only [plan] at h <;> cases h
  case endCmd => exact ⟨[.cs .high], rfl, rfl, rfl⟩
  all_goals exact ⟨[], (List.append_nil _).symm, rfl, rfl⟩

/-- What an instruction adds to the trace on a transport that completes its transfers: its transfers, and its levels. -/
theorem exec_counts {i : Instr} {s t : State} (hf : s.fault = .none) (ha : s.allAnswersOk = true)
    (h : exec i s = .next t) :
    ∃ es, t.trace = s.trace ++ es ∧ transferCount es = transfersOf i ∧ csLevels es = levelsOf i := by
  rcases exec_next_cases_of_answersOk (answersOk_of_allAnswersOk 4 ha) h with
    ⟨hfault, -⟩ | ⟨-, hp⟩ | ⟨-, start, bytes, close, rx, hp, rfl⟩
  · cases hf.symm.trans hfault
  · exact plan_answer_counts hp
  · obtain ⟨before, after, hlevels, hstart, hclose⟩ := plan_levels hp
    obtain ⟨-, -, -, -, -, -, -, rxs, hrxs, hrun⟩ := runBytes_spec bytes start
    refine ⟨before.map .cs ++ List.zipWith Event.t bytes rxs ++ after.map .cs, ?_, ?_, ?_⟩
    · simp only [hclose, hrun, hstart, List.append_assoc]
    · simp only [transferCount_append, transferCount_map_cs, transferCount_zipWith_t hrxs, plan_length hp, Nat.zero_add,
        Nat.add_zero]
    · simp only [csLevels_append, csLevels_map_cs, csLevels_zipWith_t, List.append_nil, hlevels]

/-- The counts of a list of instructions are the sums of those of its members. -/
theorem execAll_counts {is : List Instr} {s t : State} (hf : s.fault = .none) (ha : s.allAnswersOk = true)
    (h : execAll is s = .next t) :
    ∃ es, t.trace = s.trace ++ es ∧ transferCount es = (is.map transfersOf).sum ∧
      csLevels es = is.flatMap levelsOf := by
  induction is generalizing s with
  | nil =>
    cases h
    exact ⟨[], (List.append_nil _).symm, rfl, rfl⟩
  | cons i is ih =>
    rw [execAll] at h
    cases hi : exec i s with
    | fault r | refused r =>
      rw [hi] at h
      cases h
    | next u =>
      rw [hi] at h
      obtain ⟨hfault, -, -, hans⟩ := exec_framer_of_allAnswersOk ha hi
      obtain ⟨es, htrace, hcount, hlevels⟩ := exec_counts hf ha hi
      obtain ⟨fs, htrace', hcount', hlevels'⟩ := ih (hfault.trans hf) hans h
      refine ⟨es ++ fs, by rw [htrace', htrace, List.append_assoc], ?_, ?_⟩
      · rw [transferCount_append, hcount, hcount', List.map_cons, List.sum_cons]
      · rw [csLevels_append, hlevels, hlevels', List.flatMap_cons]

/-! ### Bursts -/

/-- A burst of `n` data bytes makes `4 + n` transfers. -/
theorem sum_transfersOf_burst (op : Operation) (addr : ReqAddr) (bs : List Byte) :
    ((burst op addr bs).map transfersOf).sum = 4 + bs.length := by
  simp [burst, transfersOf, Function.comp_def]

/-- A burst sets the line low once and then high once. -/
theorem flatMap_levelsOf_burst (op : Operation) (addr : ReqAddr) (bs : List Byte) :
    (burst op addr bs).flatMap levelsOf = [.low, .high] := by
  simp [burst, levelsOf, List.flatMap_map]

/-- The counts of one-byte bursts, whichever commands they start with: `5n` transfers, and `n` times low and high. -/
theorem counts_flatMap_burst {α : Type} {f : α → List Instr} (hf : ∀ p, ∃ op addr b, f p = burst op addr [b])
    (ps : List α) : ((ps.flatMap f).map transfersOf).sum = 5 * ps.length ∧
      (ps.flatMap f).flatMap levelsOf = (List.replicate ps.length [.low, .high]).flatten := by
  induction ps with
  | nil => exact ⟨rfl, rfl⟩
  | cons p ps ih =>
    obtain ⟨op, addr, b, hp⟩ := hf p
    obtain ⟨hcount, hlevels⟩ := ih
    constructor
    · rw [List.flatMap_cons, List.map_append, List.sum_append, hp, sum_transfersOf_burst, hcount]
      simp only [List.length_cons, List.length_nil]
      omega
    · rw [List.flatMap_cons, List.flatMap_append, hp, flatMap_levelsOf_burst, hlevels]
      rfl

/-- On a high line `n` bursts make `2 * n` edges. -/
theorem edgeCount_bursts (n : Nat) : edgeCount .high (List.replicate n [Level.low, .high]).flatten = 2 * n := by
  induction n with
  | zero => rfl
  | succ n ih =>
    rw [List.replicate_succ, List.flatten_cons]
    change 1 + (1 + edgeCount .high (List.replicate n [Level.low, .high]).flatten) = _
    rw [ih]
    omega

/-- A burst of either command, as its composite is written, counted on its trace. -/
theorem execAll_burst_counts {op : Operation} {addr : ReqAddr} {bs : List Byte} {s t : State} (hf : s.fault = .none)
    (ha : s.allAnswersOk = true) (h : execAll (burst op addr bs) s = .next t) :
    ∃ es, t.trace = s.trace ++ es ∧ transferCount es = 4 + bs.length ∧ csLevels es = [.low, .high] ∧
      (s.csN = .high → edgeCount s.csN (csLevels es) = 2) := by
  obtain ⟨es, htrace, hcount, hlevels⟩ := execAll_counts hf ha h
  rw [sum_transfersOf_burst] at hcount
  rw [flatMap_levelsOf_burst] at hlevels
  refine ⟨es, htrace, hcount, hlevels, fun hc => ?_⟩
  rw [hc, hlevels]
  rfl

/-- `WRITE_BYTE` and `READ_BYTE` are bursts of one data byte. -/
theorem oneByte_eq_burst (p : Bool × ReqAddr × Byte) :
    ∃ op addr b, (if p.1 then writeByte p.2.1 p.2.2 else readByte p.2.1) = burst op addr [b] := by
  split
  · exact ⟨_, _, _, rfl⟩
  · exact ⟨_, _, _, readBurst_eq_burst p.2.1 1⟩

/-- Settles O52: the counts of an instruction, summed over those of a burst and of a list of one-byte bursts. -/
theorem transferCountsAreExact : Obligations.TransferCountsAreExact := by
  intro s hf ha
  refine ⟨fun i t h => ?_, fun addr vs t h => ?_, fun bs t h => ?_⟩
  · have hcount : transferCount t.trace = transferCount s.trace + transfersOf i := by
      obtain ⟨es, htrace, hes, -⟩ := exec_counts hf ha h
      rw [htrace, transferCount_append, hes]
    refine ⟨?_, ?_, ?_, fun hi => ?_⟩
    · rintro op addr rfl
      exact hcount
    · rintro d rfl
      exact hcount
    · rintro rfl
      exact hcount
    · simp only [List.mem_cons, List.not_mem_nil, or_false] at hi
      rcases hi with rfl | rfl | rfl | rfl <;> exact hcount
  · rcases h with h | h
    · exact execAll_burst_counts hf ha h
    · rw [readBurst_eq_burst] at h
      simpa only [List.length_replicate] using execAll_burst_counts hf ha h
  · obtain ⟨es, htrace, hcount, hlevels⟩ := execAll_counts hf ha h
    obtain ⟨hsum, hflat⟩ := counts_flatMap_burst oneByte_eq_burst bs
    refine ⟨es, htrace, hcount.trans hsum, hlevels.trans hflat, fun hc => ?_⟩
    rw [hc, hlevels, hflat, edgeCount_bursts]

end Sys2Proof.Machine
end

section
/-! The wire rows that have a step (R47, R48; log entry 21): an addressed row is the header of its operation, a status
row the status frame of its opcode and second byte, each without a response. -/

namespace Sys2Proof.Machine

open Sys2Proof

/-! ### The addressed rows (R47) -/

/-- The four addressed rows are those of the four operations, each under its operation's opcode (R47, R49). -/
theorem exists_eq_wireRow_of_mem {i : Instr} {opc : Byte} {a : WireAddr}
    (h : (i, opc) ∈ [(Instr.wireRead a, 0x03), (.wireWrite a, 0x02), (.wireRdsrA a, 0x05), (.wireWrsrA a, 0x01)]) :
    ∃ op : Operation, i = wireRow op a ∧ opc = op.opcode := by
  simp only [List.mem_cons, Prod.mk.injEq, List.not_mem_nil, or_false] at h
  rcases h with ⟨rfl, rfl⟩ | ⟨rfl, rfl⟩ | ⟨rfl, rfl⟩ | ⟨rfl, rfl⟩
  · exact ⟨.read, rfl, rfl⟩
  · exact ⟨.write, rfl, rfl⟩
  · exact ⟨.readStatus, rfl, rfl⟩
  · exact ⟨.writeStatus, rfl, rfl⟩

/-- Settles O28: an addressed row is a header, whose whole effect on the framer `headerEnd_framer` gives; its address
bytes are the shifted address cut to a byte by definition (R50). -/
theorem wireHeaderFramesComplete : Obligations.WireHeaderFramesComplete := by
  intro i opc a s hi hf ha
  obtain ⟨op, rfl, rfl⟩ := exists_eq_wireRow_of_mem hi
  have h := exec_wireRow_eq (op := op) (a := a) hf ha
  rw [headerEnd_framer] at h
  exact ⟨_, _, _, _, _, h, rfl, rfl, hf, rfl, rfl, rfl, rfl, rfl⟩

/-! ### The status rows (R48) -/

theorem exec_wireWrsr_eq {d : Byte} {s : State} (hf : s.fault = .none) (ha : s.answersOk 2 = true) :
    exec (.wireWrsr d) s = .next (setCS .high (statusBytes opcWrsr d s)) := by
  simp only [exec, execWireWrsr, unlessFaulted_of_none hf, sendStatusFrame_ok ha, finishFrame_got]

theorem exec_wireRdsr_eq {d : Byte} {s : State} (hf : s.fault = .none) (ha : s.answersOk 2 = true) :
    exec (.wireRdsr d) s = .next (setCS .high (statusBytes opcRdsr d s)) := by
  simp only [exec, execWireRdsr, unlessFaulted_of_none hf, sendStatusFrame_ok ha, finishFrame_got]

/-- What a status frame leaves at a specified device on a high line: a write replaces the status register, a read
changes nothing, and no burst is open (R27, R32). -/
theorem statusFrame_dev {opc d : Byte} {s : State} (hopc : opc = opcWrsr ∨ opc = opcRdsr) (hc : s.csN = .high)
    (hl : s.dev.lost = false) : (setCS .high (statusBytes opc d s)).dev =
      { s.dev with status := if opc = opcWrsr then d else s.dev.status,
                   statusKnown := decide (opc = opcWrsr) || s.dev.statusKnown, phase := .idle, ctr := none } := by
  rcases hopc with rfl | rfl
  · exact statusWrite_dev hc hl
  · exact (statusRead_dev hc hl).1

/-- Settles O29: either row is a status frame, and both differ in the opcode only. -/
theorem wireStatusFramesComplete : Obligations.WireStatusFramesComplete := by
  intro i opc d s hi hf ha
  simp only [List.mem_cons, Prod.mk.injEq, List.not_mem_nil, or_false] at hi
  have hopc : opc = opcWrsr ∨ opc = opcRdsr := hi.imp And.right And.right
  have h : exec i s = .next (setCS .high (statusBytes opc d s)) := by
    rcases hi with ⟨rfl, rfl⟩ | ⟨rfl, rfl⟩
    · exact exec_wireWrsr_eq hf ha
    · exact exec_wireRdsr_eq hf ha
  refine ⟨_, _, _, h, statusFrame_trace opc d s, rfl, hf, rfl, rfl, rfl, tail_twice _, rfl, fun _ hl hc => ?_⟩
  rw [statusFrame_dev hopc hc hl]
  exact ⟨hl, rfl, fun _ => rfl, rfl⟩

end Sys2Proof.Machine
end
